-- ==== Sys2Proof/Word.lean ====
section
/-! DEFINITION. The words of the block: 32-bit values, bytes and register ids (00_scope.md R9, R12). -/

namespace Sys2Proof

/-- A 32-bit value: a register, a memory word, an address or a program counter (R9, R12). -/
abbrev Word := BitVec 32

/-- One byte of the memory array (R36). -/
abbrev Byte := BitVec 8

/-- A register id, the 5-bit field of R79; every value names a register (R25). -/
abbrev RegId := BitVec 5

end Sys2Proof
end

