-- ==== Sys2Proof/Config.lean ====
section
/-! DEFINITION. The open parameters of the block (00_scope.md R10), one record of plain data. -/

namespace Sys2Proof

/-- `SHIFT_GE32` (R10, R136): what a shift by 32 or more does. -/
inductive ShiftGe32 where
  | mathematical
  | mask5
  | fault
  deriving DecidableEq, Repr

/-- `HALT_DECODE` (R10, R93): which words of opcode 0x73 are the halt. -/
inductive HaltDecode where
  | canonical
  | opcodeOnly
  | exactWord
  deriving DecidableEq, Repr

/-- The four open parameters of R10. -/
structure Config where
  memSize    : Nat
  loadBase   : Word
  shiftGe32  : ShiftGe32
  haltDecode : HaltDecode
  deriving DecidableEq, Repr

/-- The constraints R10 puts on the parameters: 4 ≤ MEM_SIZE ≤ 2^32, LOAD_BASE a multiple of 4 and at most MEM_SIZE − 4. -/
abbrev Config.Valid (c : Config) : Prop :=
  4 ≤ c.memSize ∧ c.memSize ≤ 2 ^ 32 ∧ c.loadBase.toNat % 4 = 0 ∧ c.loadBase.toNat ≤ c.memSize - 4

/-- DESIGN CHOICE (notes/assumptions/1.md), unsafe where a claim rests on it: the column of R10 that names the values of
95_test_vectors.md. Only `State.reset` uses it; every other definition takes the configuration from the state. -/
def Config.testVectors : Config :=
  { memSize := 1024, loadBase := 0, shiftGe32 := .mathematical, haltDecode := .canonical }

end Sys2Proof
end

