-- ==== Sys2Proof/Syntax.lean ====
section
/-! DEFINITION. The 19 instructions of the block (00_scope.md R2), one constructor per row of spec/opcode_table.json. -/

namespace Sys2Proof

/-- The instruction set RVEMU-19 (R2). Operands are the fields of the word: register ids, the 12-bit immediate of the I and S
formats (R82, R83), the 13-bit byte offset of the B format with its implicit bit 0 (R84, R85). `ebreak` has no operands (R169). -/
inductive Instr where
  | add  (rd rs1 rs2 : RegId)
  | sub  (rd rs1 rs2 : RegId)
  | xor  (rd rs1 rs2 : RegId)
  | or   (rd rs1 rs2 : RegId)
  | and  (rd rs1 rs2 : RegId)
  | sll  (rd rs1 rs2 : RegId)
  | srl  (rd rs1 rs2 : RegId)
  | sra  (rd rs1 rs2 : RegId)
  | addi (rd rs1 : RegId) (imm : BitVec 12)
  | xori (rd rs1 : RegId) (imm : BitVec 12)
  | ori  (rd rs1 : RegId) (imm : BitVec 12)
  | andi (rd rs1 : RegId) (imm : BitVec 12)
  | lw   (rd rs1 : RegId) (imm : BitVec 12)
  | sw   (rs2 rs1 : RegId) (imm : BitVec 12)
  | beq  (rs1 rs2 : RegId) (off : BitVec 13)
  | bne  (rs1 rs2 : RegId) (off : BitVec 13)
  | blt  (rs1 rs2 : RegId) (off : BitVec 13)
  | bge  (rs1 rs2 : RegId) (off : BitVec 13)
  | ebreak
  deriving DecidableEq, Repr

end Sys2Proof
end

