-- ==== Sys2Proof/WellFormed.lean ====
section
/-! DEFINITION. Which instructions a word can hold: the B offset is even, since its bit 0 is not encoded (30_encoding.md R85).
Register ids (R79) and 12-bit immediates (R82, R83) are in range by their types. -/

namespace Sys2Proof

/-- A branch offset that the B format can hold: bit 0 is the implicit zero of R85. -/
def offsetEven (off : BitVec 13) : Bool := off.getLsbD 0 == false

/-- The well-formedness check of an instruction. -/
def Instr.wf : Instr → Bool
  | .add _ _ _  => true
  | .sub _ _ _  => true
  | .xor _ _ _  => true
  | .or _ _ _   => true
  | .and _ _ _  => true
  | .sll _ _ _  => true
  | .srl _ _ _  => true
  | .sra _ _ _  => true
  | .addi _ _ _ => true
  | .xori _ _ _ => true
  | .ori _ _ _  => true
  | .andi _ _ _ => true
  | .lw _ _ _   => true
  | .sw _ _ _   => true
  | .beq _ _ off => offsetEven off
  | .bne _ _ off => offsetEven off
  | .blt _ _ off => offsetEven off
  | .bge _ _ off => offsetEven off
  | .ebreak     => true

end Sys2Proof
end

