-- ==== Sys2Proof/Decode.lean ====
section
/-! DEFINITION. The instruction decoder and the encoders (30_encoding.md R71 to R99): field extraction, the opcode map, the
decoder, the per-format packing, the encoder, and the match/mask table of spec/opcode_table.json. -/

namespace Sys2Proof

/-! ### Bytes and words -/

/-- Byte `k` of a word, byte 0 being bits [7:0] (20_memory.md R53, R57). -/
def byteOf (w : Word) (k : Nat) : Byte := w.extractLsb' (8 * k) 8

/-- The word whose bytes from the lowest address up are `b0 b1 b2 b3` (20_memory.md R53, R54, R56). -/
def wordOfBytes (b0 b1 b2 b3 : Byte) : Word := b3 ++ b2 ++ b1 ++ b0

/-- The four bytes of a word in the order the block stores them, lowest address first (20_memory.md R54, R57). -/
def bytesOfWord (w : Word) : List Byte := [byteOf w 0, byteOf w 1, byteOf w 2, byteOf w 3]

/-! ### Formats and mnemonics -/

/-- The format of a word (R3, R77, R92); `NONE` where the opcode is none of the six. -/
inductive Format where
  | R
  | I
  | S
  | B
  | NONE
  deriving DecidableEq, Repr

/-- The 19 mnemonics (00_scope.md R2). -/
inductive Mnemonic where
  | add | sub | xor | or | and | sll | srl | sra
  | addi | xori | ori | andi
  | lw | sw
  | beq | bne | blt | bge
  | ebreak
  deriving DecidableEq, Repr

/-- The mnemonic of an instruction. -/
def Instr.mnemonic : Instr → Mnemonic
  | .add _ _ _  => .add
  | .sub _ _ _  => .sub
  | .xor _ _ _  => .xor
  | .or _ _ _   => .or
  | .and _ _ _  => .and
  | .sll _ _ _  => .sll
  | .srl _ _ _  => .srl
  | .sra _ _ _  => .sra
  | .addi _ _ _ => .addi
  | .xori _ _ _ => .xori
  | .ori _ _ _  => .ori
  | .andi _ _ _ => .andi
  | .lw _ _ _   => .lw
  | .sw _ _ _   => .sw
  | .beq _ _ _  => .beq
  | .bne _ _ _  => .bne
  | .blt _ _ _  => .blt
  | .bge _ _ _  => .bge
  | .ebreak     => .ebreak

/-- The format column of R106. -/
def Mnemonic.format : Mnemonic → Format
  | .add => .R | .sub => .R | .xor => .R | .or => .R | .and => .R | .sll => .R | .srl => .R | .sra => .R
  | .addi => .I | .xori => .I | .ori => .I | .andi => .I
  | .lw => .I
  | .sw => .S
  | .beq => .B | .bne => .B | .blt => .B | .bge => .B
  | .ebreak => .I

/-- The opcode column of R106. -/
def Mnemonic.opcode : Mnemonic → BitVec 7
  | .add => 0x33 | .sub => 0x33 | .xor => 0x33 | .or => 0x33 | .and => 0x33 | .sll => 0x33 | .srl => 0x33 | .sra => 0x33
  | .addi => 0x13 | .xori => 0x13 | .ori => 0x13 | .andi => 0x13
  | .lw => 0x03
  | .sw => 0x23
  | .beq => 0x63 | .bne => 0x63 | .blt => 0x63 | .bge => 0x63
  | .ebreak => 0x73

/-- The funct3 column of R106. -/
def Mnemonic.funct3 : Mnemonic → BitVec 3
  | .add => 0b000 | .sub => 0b000 | .sll => 0b001 | .xor => 0b100 | .srl => 0b101 | .sra => 0b101 | .or => 0b110 | .and => 0b111
  | .addi => 0b000 | .xori => 0b100 | .ori => 0b110 | .andi => 0b111
  | .lw => 0b010
  | .sw => 0b010
  | .beq => 0b000 | .bne => 0b001 | .blt => 0b100 | .bge => 0b101
  | .ebreak => 0b000

/-- The funct7 column of R106, for the R format; the other formats have no funct7 (the value 0 is not read for them). -/
def Mnemonic.funct7 : Mnemonic → BitVec 7
  | .sub => 0b0100000
  | .sra => 0b0100000
  | _ => 0b0000000

/-! ### Field extraction (R78 to R85) -/

/-- R78. -/
def opcodeOf (w : Word) : BitVec 7 := w.extractLsb' 0 7
/-- R79. -/
def rdOf (w : Word) : RegId := w.extractLsb' 7 5
/-- R80. -/
def funct3Of (w : Word) : BitVec 3 := w.extractLsb' 12 3
/-- R79. -/
def rs1Of (w : Word) : RegId := w.extractLsb' 15 5
/-- R79. -/
def rs2Of (w : Word) : RegId := w.extractLsb' 20 5
/-- R80. -/
def funct7Of (w : Word) : BitVec 7 := w.extractLsb' 25 7

/-- The 12-bit field of the I format, `word[31:20]` (R73). -/
def immIField (w : Word) : BitVec 12 := w.extractLsb' 20 12
/-- The 12-bit field of the S format, `{word[31:25], word[11:7]}` (R74). -/
def immSField (w : Word) : BitVec 12 := w.extractLsb' 25 7 ++ w.extractLsb' 7 5
/-- The 13-bit offset of the B format, `{word[31], word[7], word[30:25], word[11:8], 0}` (R75, R85). -/
def immBField (w : Word) : BitVec 13 :=
  w.extractLsb' 31 1 ++ w.extractLsb' 7 1 ++ w.extractLsb' 25 6 ++ w.extractLsb' 8 4 ++ 0#1

/-- `sext_32` (00_scope.md R13). -/
def sext32 {n : Nat} (f : BitVec n) : Word := f.signExtend 32

/-- The sign extension as R81 words it: the field at the top of a signed 16-bit container, shifted back arithmetically, then
taken as a 32-bit operand. -/
def sextContainer {n : Nat} (f : BitVec n) : Word :=
  (((f.setWidth 16) <<< (16 - n)).sshiftRight (16 - n)).signExtend 32

/-- R82. -/
def immI (w : Word) : Word := sext32 (immIField w)
/-- R83. -/
def immS (w : Word) : Word := sext32 (immSField w)
/-- R84. -/
def immB (w : Word) : Word := sext32 (immBField w)

/-! ### The opcode map (R91 to R96) -/

/-- R92. -/
def formatOf (w : Word) : Format :=
  if opcodeOf w = 0x33 then .R
  else if opcodeOf w = 0x13 then .I
  else if opcodeOf w = 0x03 then .I
  else if opcodeOf w = 0x73 then .I
  else if opcodeOf w = 0x23 then .S
  else if opcodeOf w = 0x63 then .B
  else .NONE

/-- R94: opcode 0x33 decodes on the pair (funct3, funct7). -/
def decodeRegister (f3 : BitVec 3) (f7 : BitVec 7) : Option Mnemonic :=
  if f3 = 0b000 ∧ f7 = 0b0000000 then some .add
  else if f3 = 0b000 ∧ f7 = 0b0100000 then some .sub
  else if f3 = 0b001 ∧ f7 = 0b0000000 then some .sll
  else if f3 = 0b100 ∧ f7 = 0b0000000 then some .xor
  else if f3 = 0b101 ∧ f7 = 0b0000000 then some .srl
  else if f3 = 0b101 ∧ f7 = 0b0100000 then some .sra
  else if f3 = 0b110 ∧ f7 = 0b0000000 then some .or
  else if f3 = 0b111 ∧ f7 = 0b0000000 then some .and
  else none

/-- R95, opcode 0x13. -/
def decodeImmediate (f3 : BitVec 3) : Option Mnemonic :=
  if f3 = 0b000 then some .addi
  else if f3 = 0b100 then some .xori
  else if f3 = 0b110 then some .ori
  else if f3 = 0b111 then some .andi
  else none

/-- R95, opcode 0x03. -/
def decodeLoad (f3 : BitVec 3) : Option Mnemonic := if f3 = 0b010 then some .lw else none

/-- R95, opcode 0x23. -/
def decodeStore (f3 : BitVec 3) : Option Mnemonic := if f3 = 0b010 then some .sw else none

/-- R95, opcode 0x63. -/
def decodeBranch (f3 : BitVec 3) : Option Mnemonic :=
  if f3 = 0b000 then some .beq
  else if f3 = 0b001 then some .bne
  else if f3 = 0b100 then some .blt
  else if f3 = 0b101 then some .bge
  else none

/-- R93: whether a word of opcode 0x73 is the halt, under each setting of HALT_DECODE. -/
def isHaltWord (h : HaltDecode) (w : Word) : Bool :=
  match h with
  | .canonical  => funct3Of w == 0 && immIField w == 0x001
  | .opcodeOnly => true
  | .exactWord  => w == 0x00100073

/-- The instruction a word selects, `none` where it is unrecognized (R91 to R96). This is the output `op` of R41. -/
def decodeOp (h : HaltDecode) (w : Word) : Option Mnemonic :=
  if opcodeOf w = 0x33 then decodeRegister (funct3Of w) (funct7Of w)
  else if opcodeOf w = 0x13 then decodeImmediate (funct3Of w)
  else if opcodeOf w = 0x03 then decodeLoad (funct3Of w)
  else if opcodeOf w = 0x73 then (if isHaltWord h w then some .ebreak else none)
  else if opcodeOf w = 0x23 then decodeStore (funct3Of w)
  else if opcodeOf w = 0x63 then decodeBranch (funct3Of w)
  else none

/-- The instruction of a mnemonic with the operand fields of a word (R41, R79, R82 to R84). -/
def operandsOf (w : Word) : Mnemonic → Instr
  | .add  => .add (rdOf w) (rs1Of w) (rs2Of w)
  | .sub  => .sub (rdOf w) (rs1Of w) (rs2Of w)
  | .xor  => .xor (rdOf w) (rs1Of w) (rs2Of w)
  | .or   => .or (rdOf w) (rs1Of w) (rs2Of w)
  | .and  => .and (rdOf w) (rs1Of w) (rs2Of w)
  | .sll  => .sll (rdOf w) (rs1Of w) (rs2Of w)
  | .srl  => .srl (rdOf w) (rs1Of w) (rs2Of w)
  | .sra  => .sra (rdOf w) (rs1Of w) (rs2Of w)
  | .addi => .addi (rdOf w) (rs1Of w) (immIField w)
  | .xori => .xori (rdOf w) (rs1Of w) (immIField w)
  | .ori  => .ori (rdOf w) (rs1Of w) (immIField w)
  | .andi => .andi (rdOf w) (rs1Of w) (immIField w)
  | .lw   => .lw (rdOf w) (rs1Of w) (immIField w)
  | .sw   => .sw (rs2Of w) (rs1Of w) (immSField w)
  | .beq  => .beq (rs1Of w) (rs2Of w) (immBField w)
  | .bne  => .bne (rs1Of w) (rs2Of w) (immBField w)
  | .blt  => .blt (rs1Of w) (rs2Of w) (immBField w)
  | .bge  => .bge (rs1Of w) (rs2Of w) (immBField w)
  | .ebreak => .ebreak

/-- Why the decoder gives no instruction (R96). -/
inductive DecodeError where
  /-- The opcode is none of the six of R91: the first case of R96. -/
  | unknownOpcode
  /-- A known opcode whose function selector is not listed (the other cases of R96); the format is the opcode's. -/
  | unknownSelector (f : Format)
  /-- Fewer than the four bytes of a word (R71); the block's fetch never gives this. -/
  | truncated
  deriving DecidableEq, Repr

/-- The decoder, total on every word: one of the 19 instructions, or a named rejection (R98). What the block does with a rejected
word is `stepUnrecognized` (R97, R129, R130). -/
def decode (h : HaltDecode) (w : Word) : Except DecodeError Instr :=
  match decodeOp h w with
  | some m => .ok (operandsOf w m)
  | none   => if formatOf w = .NONE then .error .unknownOpcode else .error (.unknownSelector (formatOf w))

/-- The decoder on a stream of bytes: the instruction of the first four and the bytes after them (R54, R71). -/
def decodeBytes (h : HaltDecode) : List Byte → Except DecodeError (Instr × List Byte)
  | b0 :: b1 :: b2 :: b3 :: rest =>
    match decode h (wordOfBytes b0 b1 b2 b3) with
    | .ok i    => .ok (i, rest)
    | .error e => .error e
  | _ => .error .truncated

/-! ### Packing (R86 to R89) and the encoder -/

/-- R86. -/
def encodeR (opcode rd f3 rs1 rs2 f7 : Word) : Word :=
  (f7 &&& 0x7F) <<< 25 ||| (rs2 &&& 0x1F) <<< 20 ||| (rs1 &&& 0x1F) <<< 15
    ||| (f3 &&& 0x7) <<< 12 ||| (rd &&& 0x1F) <<< 7 ||| (opcode &&& 0x7F)

/-- R87. -/
def encodeI (opcode rd f3 rs1 imm : Word) : Word :=
  (imm &&& 0xFFF) <<< 20 ||| (rs1 &&& 0x1F) <<< 15 ||| (f3 &&& 0x7) <<< 12
    ||| (rd &&& 0x1F) <<< 7 ||| (opcode &&& 0x7F)

/-- R88. -/
def encodeS (opcode f3 rs1 rs2 imm : Word) : Word :=
  ((imm >>> 5) &&& 0x7F) <<< 25 ||| (rs2 &&& 0x1F) <<< 20 ||| (rs1 &&& 0x1F) <<< 15
    ||| (f3 &&& 0x7) <<< 12 ||| (imm &&& 0x1F) <<< 7 ||| (opcode &&& 0x7F)

/-- R89: bit 0 of the offset is dropped. -/
def encodeB (opcode f3 rs1 rs2 off : Word) : Word :=
  ((off >>> 12) &&& 0x1) <<< 31 ||| ((off >>> 5) &&& 0x3F) <<< 25
    ||| (rs2 &&& 0x1F) <<< 20 ||| (rs1 &&& 0x1F) <<< 15 ||| (f3 &&& 0x7) <<< 12
    ||| ((off >>> 1) &&& 0xF) <<< 8 ||| ((off >>> 11) &&& 0x1) <<< 7 ||| (opcode &&& 0x7F)

/-- The R-format word of a mnemonic of R106 (R109). -/
def encodeRow (m : Mnemonic) (rd rs1 rs2 : RegId) : Word :=
  encodeR (m.opcode.setWidth 32) (rd.setWidth 32) (m.funct3.setWidth 32) (rs1.setWidth 32) (rs2.setWidth 32)
    (m.funct7.setWidth 32)

/-- The I-format word of a mnemonic of R106 (R110, R111). -/
def encodeRowI (m : Mnemonic) (rd rs1 : RegId) (imm : BitVec 12) : Word :=
  encodeI (m.opcode.setWidth 32) (rd.setWidth 32) (m.funct3.setWidth 32) (rs1.setWidth 32) (sext32 imm)

/-- The S-format word of a mnemonic of R106 (R112). -/
def encodeRowS (m : Mnemonic) (rs2 rs1 : RegId) (imm : BitVec 12) : Word :=
  encodeS (m.opcode.setWidth 32) (m.funct3.setWidth 32) (rs1.setWidth 32) (rs2.setWidth 32) (sext32 imm)

/-- The B-format word of a mnemonic of R106 (R113). -/
def encodeRowB (m : Mnemonic) (rs1 rs2 : RegId) (off : BitVec 13) : Word :=
  encodeB (m.opcode.setWidth 32) (m.funct3.setWidth 32) (rs1.setWidth 32) (rs2.setWidth 32) (sext32 off)

/-- The word of an instruction (R106, R109 to R113); `ebreak` is exactly 0x00100073 (R116). -/
def encode : Instr → Word
  | .add rd rs1 rs2  => encodeRow .add rd rs1 rs2
  | .sub rd rs1 rs2  => encodeRow .sub rd rs1 rs2
  | .xor rd rs1 rs2  => encodeRow .xor rd rs1 rs2
  | .or rd rs1 rs2   => encodeRow .or rd rs1 rs2
  | .and rd rs1 rs2  => encodeRow .and rd rs1 rs2
  | .sll rd rs1 rs2  => encodeRow .sll rd rs1 rs2
  | .srl rd rs1 rs2  => encodeRow .srl rd rs1 rs2
  | .sra rd rs1 rs2  => encodeRow .sra rd rs1 rs2
  | .addi rd rs1 imm => encodeRowI .addi rd rs1 imm
  | .xori rd rs1 imm => encodeRowI .xori rd rs1 imm
  | .ori rd rs1 imm  => encodeRowI .ori rd rs1 imm
  | .andi rd rs1 imm => encodeRowI .andi rd rs1 imm
  | .lw rd rs1 imm   => encodeRowI .lw rd rs1 imm
  | .sw rs2 rs1 imm  => encodeRowS .sw rs2 rs1 imm
  | .beq rs1 rs2 off => encodeRowB .beq rs1 rs2 off
  | .bne rs1 rs2 off => encodeRowB .bne rs1 rs2 off
  | .blt rs1 rs2 off => encodeRowB .blt rs1 rs2 off
  | .bge rs1 rs2 off => encodeRowB .bge rs1 rs2 off
  | .ebreak          => 0x00100073

/-! ### The match/mask table (R99) -/

/-- One row of spec/opcode_table.json: a word is this instruction when its masked bits are the match value. -/
structure OpcodeRow where
  mnemonic   : Mnemonic
  matchValue : Word
  mask       : Word
  deriving DecidableEq, Repr

/-- Whether a word is of a row. -/
def OpcodeRow.selects (r : OpcodeRow) (w : Word) : Bool := w &&& r.mask == r.matchValue

/-- spec/opcode_table.json, row by row (R99, HALT_DECODE = canonical). -/
def opcodeTable : List OpcodeRow :=
  [ ⟨.add,  0x00000033, 0xFE00707F⟩, ⟨.sub,  0x40000033, 0xFE00707F⟩, ⟨.xor,  0x00004033, 0xFE00707F⟩,
    ⟨.or,   0x00006033, 0xFE00707F⟩, ⟨.and,  0x00007033, 0xFE00707F⟩, ⟨.sll,  0x00001033, 0xFE00707F⟩,
    ⟨.srl,  0x00005033, 0xFE00707F⟩, ⟨.sra,  0x40005033, 0xFE00707F⟩ ] ++
  [ ⟨.addi, 0x00000013, 0x0000707F⟩, ⟨.xori, 0x00004013, 0x0000707F⟩, ⟨.ori,  0x00006013, 0x0000707F⟩,
    ⟨.andi, 0x00007013, 0x0000707F⟩, ⟨.lw,   0x00002003, 0x0000707F⟩, ⟨.sw,   0x00002023, 0x0000707F⟩ ] ++
  [ ⟨.beq,  0x00000063, 0x0000707F⟩, ⟨.bne,  0x00001063, 0x0000707F⟩, ⟨.blt,  0x00004063, 0x0000707F⟩,
    ⟨.bge,  0x00005063, 0x0000707F⟩, ⟨.ebreak, 0x00100073, 0xFFF0707F⟩ ]

/-- The mnemonic of the first row of a table that selects a word. -/
def tableLookup : List OpcodeRow → Word → Option Mnemonic
  | [], _ => none
  | r :: rs, w => if r.selects w then some r.mnemonic else tableLookup rs w

/-! ### The host's question about the table -/

/-- The word of a table row's bits: bit 0 the least significant, the bits above `nbits` zero. -/
def tableWord (nbits w : Nat) : Word := BitVec.ofNat 32 (w % 2 ^ nbits)

/-- What the decoder reads from an instruction whose bits are `w`, laid out as the block stores it (R54), under the setting of
HALT_DECODE that spec/opcode_table.json holds (R99). -/
def decodeTableWord (nbits w : Nat) : Option Instr :=
  match decodeBytes .canonical (bytesOfWord (tableWord nbits w)) with
  | .ok (i, _) => some i
  | .error _   => none

end Sys2Proof
end

