-- ==== Sys2Proof/Machine/State.lean ====
section
/-! DEFINITION. The state of the block as plain data (10_state.md R25 to R40), the reasons a step can stop, and the state right
after reset (70_reset_and_hazards.md R187). -/

namespace Sys2Proof.Machine

/-- The fault kinds of 60_exceptions.md R176, the values `State.fault` takes beside None. A meaning that faults TAKES the fault as
a next state with this field set (`raiseFault`; notes/assumptions/4.md, safe); no definition answers `Outcome.fault`. -/
inductive Fault where
  /-- Raised by `lw` and `sw` whose effective address has `u(EA) > MEM_SIZE − 4`, with that EA (R60, R164). Safe: the spec's own
  treatment, a stop where the source says nothing. -/
  | memOutOfRange (ea : Word)
  /-- Raised by `sll`, `srl` and `sra` with a shift amount of 32 or more when SHIFT_GE32 = fault (R136). Safe. -/
  | shiftOutOfRange
  deriving DecidableEq, Repr

/-- Why an operation has no transition. -/
inductive Refusal where
  /-- An instruction without a meaning, by its mnemonic. No arm of `exec` raises it: all 19 are modelled. Safe. -/
  | notModelled (mnemonic : String)
  /-- `loadProgram` with `LOAD_BASE + L > MEM_SIZE` (70_reset_and_hazards.md R190). Safe: no instruction raises it. -/
  | imageTooLarge
  deriving DecidableEq, Repr

/-- The decoded instruction info, an observation output (R37). A NONE mnemonic is `none`. -/
structure Info where
  format       : Format
  mnemonic     : Option Mnemonic
  rd           : RegId
  rs1          : RegId
  rs2          : RegId
  imm          : Word
  unrecognized : Bool
  deriving DecidableEq, Repr

/-- The cleared value of R37. -/
def Info.cleared : Info :=
  { format := .NONE, mnemonic := none, rd := 0, rs1 := 0, rs2 := 0, imm := 0, unrecognized := false }

/-- The memory array of R36 in canonical form (`Memory.wf`): the bytes that are not 0, by strictly rising address. An unlisted
address reads as 0, the reset contents R40 gives. -/
abbrev Memory := List Host.Cell

/-- The complete state of the block (R40), and the configuration, which no operation writes (notes/assumptions/1.md). -/
structure State where
  /-- `x[0]` to `x[31]` (R25); `x[0]` is an ordinary register (R27). -/
  x     : Vector Word 32
  /-- The byte address of the word being executed (R30). -/
  pc    : Word
  /-- The halt flag (R33). -/
  halt  : Bool
  /-- The memory array (R36). -/
  mem   : Memory
  /-- The last decoded instruction, for observation only (R37). -/
  info  : Info
  /-- The fault state (R38); `none` is the spec's None. -/
  fault : Option Fault
  /-- MEM_SIZE, LOAD_BASE, SHIFT_GE32 and HALT_DECODE (00_scope.md R10): the model's own field. -/
  cfg   : Config
  deriving DecidableEq, Repr

/-- The zeroed state of a configuration (R40, R187). -/
def State.resetWith (c : Config) : State :=
  { x := Vector.replicate 32 0, pc := 0, halt := false, mem := [], info := Info.cleared, fault := none, cfg := c }

/-- The block right after reset (R187), in the configuration of 95_test_vectors.md (DESIGN CHOICE, notes/assumptions/1.md). -/
def State.reset : State := State.resetWith Config.testVectors

end Sys2Proof.Machine
end

