-- ==== Sys2Proof/Machine/Ops.lean ====
section
/-! DEFINITION. The named operations over registers, pc and memory; the fetch; taking a fault; the parts of a step that stand
around the execution of an instruction (10_state.md R26 to R33, 20_memory.md, 40_sequencer.md R119 to R134). -/

namespace Sys2Proof.Machine

/-! ### Registers and pc -/

/-- A read of `x[i]` (R26, R29), `x[0]` included (R27). -/
def readReg (s : State) (i : RegId) : Word := s.x[i.toNat]

/-- A write of `x[i]` (R28), `x[0]` included (R27). -/
def writeReg (s : State) (i : RegId) (v : Word) : State := { s with x := s.x.set i.toNat v }

/-- The PC advance of R124: always, after the execute phase of a step that did not fault. -/
def advancePc (s : State) : State := { s with pc := s.pc + 4 }

/-- The pre-compensated value of a taken branch, `pc' = pc +32 imm_b −32 4` (R125). -/
def redirect (s : State) (immB : Word) : State := { s with pc := s.pc + immB - 4 }

/-! ### Memory: bytes -/

/-- The byte at an address; an unlisted address reads as 0 (R40). -/
def Memory.readByte : Memory → Nat → Byte
  | [], _ => 0
  | c :: m, a => if c.1 = a then c.2 else Memory.readByte m a

/-- No entry for the address any more. -/
def Memory.erase : Memory → Nat → Memory
  | [], _ => []
  | c :: m, a => if c.1 = a then Memory.erase m a else c :: Memory.erase m a

/-- An entry put at its place in the rising order. -/
def Memory.insert : Memory → Nat → Byte → Memory
  | [], a, v => [(a, v)]
  | c :: m, a, v => if a < c.1 then (a, v) :: c :: m else c :: Memory.insert m a v

/-- A write of one byte, which keeps the canonical form: the value 0, what an unlisted address reads as, removes the entry. -/
def Memory.writeByte (m : Memory) (a : Nat) (v : Byte) : Memory :=
  if v = 0 then m.erase a else (m.erase a).insert a v

/-- The canonical form: strictly rising addresses and no entry equal to what an unlisted address reads as. -/
abbrev Memory.wf (m : Memory) : Prop :=
  m.Pairwise (fun c d => c.1 < d.1) ∧ ∀ c ∈ m, c.2 ≠ 0

/-- The array has MEM_SIZE bytes (R36): no entry lies at or beyond `size`. -/
abbrev Memory.within (m : Memory) (size : Nat) : Prop := ∀ c ∈ m, c.1 < size

/-! ### Memory: words, the only access width (R61) -/

/-- The little-endian word at an address (R53, R56). -/
def Memory.readWord (m : Memory) (a : Nat) : Word :=
  wordOfBytes (m.readByte a) (m.readByte (a + 1)) (m.readByte (a + 2)) (m.readByte (a + 3))

/-- The little-endian write of a word (R53, R57). -/
def Memory.writeWord (m : Memory) (a : Nat) (v : Word) : Memory :=
  (((m.writeByte a (byteOf v 0)).writeByte (a + 1) (byteOf v 1)).writeByte (a + 2) (byteOf v 2)).writeByte (a + 3) (byteOf v 3)

/-- Consecutive bytes from an address on (the copy of R189). -/
def Memory.writeBytes : Memory → Nat → List Byte → Memory
  | m, _, [] => m
  | m, a, b :: bs => Memory.writeBytes (m.writeByte a b) (a + 1) bs

/-- `u(a) ≤ MEM_SIZE − 4`: the four bytes at `a` are in the array (R56 to R60). Written without subtraction, so that it says the
same for every MEM_SIZE of R10 (notes/assumptions/21.md). -/
def State.inMem (s : State) (a : Word) : Bool := decide (a.toNat + 4 ≤ s.cfg.memSize)

/-- `MemRead(a, 4)` (R56), which out of range gives the fault of R60. -/
def memRead (s : State) (a : Word) : Except Fault Word :=
  if s.inMem a then .ok (s.mem.readWord a.toNat) else .error (.memOutOfRange a)

/-- `MemWrite(a, 4, v)` (R57), which out of range gives the fault of R60. -/
def memWrite (s : State) (a : Word) (v : Word) : Except Fault State :=
  if s.inMem a then .ok { s with mem := s.mem.writeWord a.toNat v } else .error (.memOutOfRange a)

/-! ### Taking a fault -/

/-- `raise Fault(k)` (R134, R176): `fault <- k` and nothing else. It is the block's only exception entry: no pc or status is saved
and no handler is taken (R172, R180). There is no return from it (R181); only the host's `reset` clears it (R177, R188). -/
def raiseFault (s : State) (k : Fault) : State := { s with fault := some k }

/-- The write of a result through the one write port: `x[rd] <- y` (R28), or the fault before any write (R134, R143, R165). -/
def writeResult (s : State) (rd : RegId) (y : Except Fault Word) : Except Fault State :=
  match y with
  | .ok v    => .ok (writeReg s rd v)
  | .error k => .error k

/-- The end of the execute phase: a fault is taken (R134), or else the pc advances (R124). `s` is the state at the start of the
step, `r` what the instruction's rule made of it. -/
def endExecute (s : State) (r : Except Fault State) : Host.Outcome State Fault Refusal :=
  match r with
  | .ok t    => .next (advancePc t)
  | .error k => .next (raiseFault s k)

/-! ### The step around the instruction -/

/-- The guard of R120 passes: the run state is Running (R132). -/
def State.running (s : State) : Bool := !s.halt && s.fault.isNone && s.inMem s.pc

/-- `Fetch(pc)` (R58, R121). -/
def fetch (s : State) : Word := s.mem.readWord s.pc.toNat

/-- The `info` of a word (R37): the fields its format has, 0 for the others. -/
def infoOf (h : HaltDecode) (w : Word) : Info :=
  { format := formatOf w
    mnemonic := decodeOp h w
    rd := match formatOf w with
      | .R => rdOf w | .I => rdOf w | .S => 0 | .B => 0 | .NONE => 0
    rs1 := match formatOf w with
      | .R => rs1Of w | .I => rs1Of w | .S => rs1Of w | .B => rs1Of w | .NONE => 0
    rs2 := match formatOf w with
      | .R => rs2Of w | .I => 0 | .S => rs2Of w | .B => rs2Of w | .NONE => 0
    imm := match formatOf w with
      | .R => 0 | .I => immI w | .S => immS w | .B => immB w | .NONE => 0
    unrecognized := (decodeOp h w).isNone }

/-- The info update of a progressing step (R128). -/
def setInfo (s : State) (w : Word) : State := { s with info := infoOf s.cfg.haltDecode w }

/-- The info update after the execute phase: none when the step faulted (R128, R134). -/
def recordInfo (w : Word) (o : Host.Outcome State Fault Refusal) : Host.Outcome State Fault Refusal :=
  match o with
  | .next t    => if t.fault.isSome then .next t else .next (setInfo t w)
  | .fault r   => .fault r
  | .refused r => .refused r

/-- The execution of an unrecognized word (R97, R129, R130): nothing but the PC advance and the info update. -/
def stepUnrecognized (w : Word) (s : State) : State := setInfo (advancePc s) w

end Sys2Proof.Machine
end

