-- ==== Sys2Proof/Machine/Alu.lean ====
section
/-! DEFINITION. The ALU (41_alu_register.md R135 to R137, R147), shared by the register and the immediate instructions. -/

namespace Sys2Proof.Machine

/-- The operation input of the ALU (R43). -/
inductive AluOp where
  | ADD
  | SUB
  | XOR
  | OR
  | AND
  | SLL
  | SRL
  | SRA
  deriving DecidableEq, Repr

/-- The kind of a shift (R136). -/
inductive ShiftKind where
  | SLL
  | SRL
  | SRA
  deriving DecidableEq, Repr

/-- `Shift(k, a, n)` for `n` in [0, 31] (R136, R137). -/
def shiftSmall (k : ShiftKind) (a : Word) (n : Nat) : Word :=
  match k with
  | .SLL => a <<< n
  | .SRL => a >>> n
  | .SRA => a.sshiftRight n

/-- The `mathematical` result of a shift by 32 or more (R136): 0, or 32 copies of bit 31 for SRA. -/
def shiftAllOut (k : ShiftKind) (a : Word) : Word :=
  match k with
  | .SLL => 0
  | .SRL => 0
  | .SRA => if a.getLsbD 31 then 0xFFFFFFFF else 0

/-- `Shift(k, a, n)` (R136): the whole value of the shift operand; 32 or more follows SHIFT_GE32. -/
def shift (g : ShiftGe32) (k : ShiftKind) (a : Word) (n : Nat) : Except Fault Word :=
  if n < 32 then .ok (shiftSmall k a n)
  else match g with
    | .mathematical => .ok (shiftAllOut k a)
    | .mask5        => .ok (shiftSmall k a (n % 32))
    | .fault        => .error .shiftOutOfRange

/-- `ALU(aluop, a, b)` (R135); an error is the output `shift_fault` of R43. -/
def alu (g : ShiftGe32) (op : AluOp) (a b : Word) : Except Fault Word :=
  match op with
  | .ADD => .ok (a + b)
  | .SUB => .ok (a - b)
  | .XOR => .ok (a ^^^ b)
  | .OR  => .ok (a ||| b)
  | .AND => .ok (a &&& b)
  | .SLL => shift g .SLL a b.toNat
  | .SRL => shift g .SRL a b.toNat
  | .SRA => shift g .SRA a b.toNat

end Sys2Proof.Machine
end

