-- ==== Sys2Proof/Machine/Operands.lean ====
section
/-! DEFINITION. The operand forms: register operands are `readReg` (10_state.md R29); the sign-extended immediate
(42_alu_immediate.md R148, R149); the base plus displacement of loads and stores (44_load_store.md R164); the branch offset
(30_encoding.md R84, R85). -/

namespace Sys2Proof.Machine

/-- The immediate operand of the I-format ALU instructions, always sign-extended (R148, R149). -/
def immOperand (imm : BitVec 12) : Word := sext32 imm

/-- `EA = x[rs1] +32 sext_32(imm)` (R164), for `lw` and for `sw`. -/
def effectiveAddress (s : State) (rs1 : RegId) (imm : BitVec 12) : Word := readReg s rs1 + sext32 imm

/-- `imm_b`: the byte offset of a branch as a 32-bit value (R84). -/
def branchOffset (off : BitVec 13) : Word := sext32 off

/-- `imm_b mod 4 = 0`, that is `imm_b[1] = 0` and `imm_b[0] = 0` (R156). -/
def offsetAligned (off : BitVec 13) : Bool := (branchOffset off).extractLsb' 0 2 == 0

end Sys2Proof.Machine
end

