-- ==== Sys2Proof/Machine/AluImmediate.lean ====
section
/-! DEFINITION. The four register-immediate instructions (42_alu_immediate.md R148 to R153). -/

namespace Sys2Proof.Machine

/-- The template of R148: `x[rd] <- ALU(op, x[rs1], sext_32(imm))`, pc + 4. -/
def execImmediate (op : AluOp) (rd rs1 : RegId) (imm : BitVec 12) (s : State) : Host.Outcome State Fault Refusal :=
  endExecute s (writeResult s rd (alu s.cfg.shiftGe32 op (readReg s rs1) (immOperand imm)))

/-- R150. -/
def execAddi (rd rs1 : RegId) (imm : BitVec 12) (s : State) : Host.Outcome State Fault Refusal := execImmediate .ADD rd rs1 imm s
/-- R151. -/
def execXori (rd rs1 : RegId) (imm : BitVec 12) (s : State) : Host.Outcome State Fault Refusal := execImmediate .XOR rd rs1 imm s
/-- R152. -/
def execOri (rd rs1 : RegId) (imm : BitVec 12) (s : State) : Host.Outcome State Fault Refusal := execImmediate .OR rd rs1 imm s
/-- R153. -/
def execAndi (rd rs1 : RegId) (imm : BitVec 12) (s : State) : Host.Outcome State Fault Refusal := execImmediate .AND rd rs1 imm s

end Sys2Proof.Machine
end

