-- ==== Sys2Proof/Machine/AluRegister.lean ====
section
/-! DEFINITION. The eight register-register instructions (41_alu_register.md R138 to R145). -/

namespace Sys2Proof.Machine

/-- The template of the register-register instructions (preface to R138): `x[rd] <- ALU(op, x[rs1], x[rs2])`, pc + 4. -/
def execRegister (op : AluOp) (rd rs1 rs2 : RegId) (s : State) : Host.Outcome State Fault Refusal :=
  endExecute s (writeResult s rd (alu s.cfg.shiftGe32 op (readReg s rs1) (readReg s rs2)))

/-- R138. -/
def execAdd (rd rs1 rs2 : RegId) (s : State) : Host.Outcome State Fault Refusal := execRegister .ADD rd rs1 rs2 s
/-- R139. -/
def execSub (rd rs1 rs2 : RegId) (s : State) : Host.Outcome State Fault Refusal := execRegister .SUB rd rs1 rs2 s
/-- R140. -/
def execXor (rd rs1 rs2 : RegId) (s : State) : Host.Outcome State Fault Refusal := execRegister .XOR rd rs1 rs2 s
/-- R141. -/
def execOr (rd rs1 rs2 : RegId) (s : State) : Host.Outcome State Fault Refusal := execRegister .OR rd rs1 rs2 s
/-- R142. -/
def execAnd (rd rs1 rs2 : RegId) (s : State) : Host.Outcome State Fault Refusal := execRegister .AND rd rs1 rs2 s
/-- R143. -/
def execSll (rd rs1 rs2 : RegId) (s : State) : Host.Outcome State Fault Refusal := execRegister .SLL rd rs1 rs2 s
/-- R144. -/
def execSrl (rd rs1 rs2 : RegId) (s : State) : Host.Outcome State Fault Refusal := execRegister .SRL rd rs1 rs2 s
/-- R145. -/
def execSra (rd rs1 rs2 : RegId) (s : State) : Host.Outcome State Fault Refusal := execRegister .SRA rd rs1 rs2 s

end Sys2Proof.Machine
end

