-- ==== Sys2Proof/Machine/Flags.lean ====
section
/-! DEFINITION. The block has no condition codes and no status flags (10_state.md R34): its only flag is `halt` (R33), and the only
comparison results are the outputs of the branch condition evaluator (43_branch.md R155, R156). -/

namespace Sys2Proof.Machine

/-- `halt <- 1` (R33, R169). -/
def setHalt (s : State) : State := { s with halt := true }

/-- The condition input of the branch evaluator (R44). -/
inductive Cond where
  | EQ
  | NE
  | LTU
  | GEU
  deriving DecidableEq, Repr

/-- `Cond(cond, a, b)` (R155): the order comparisons are unsigned. -/
def evalCond (c : Cond) (a b : Word) : Bool :=
  match c with
  | .EQ  => decide (a = b)
  | .NE  => decide (a ≠ b)
  | .LTU => decide (a.toNat < b.toNat)
  | .GEU => decide (b.toNat ≤ a.toNat)

/-- A branch is taken exactly when the condition holds and the offset is a multiple of 4 (R156). -/
def branchTaken (c : Cond) (a b : Word) (off : BitVec 13) : Bool := evalCond c a b && offsetAligned off

end Sys2Proof.Machine
end

