-- ==== Sys2Proof/Machine/Branch.lean ====
section
/-! DEFINITION. The four conditional branches (43_branch.md R155 to R161). -/

namespace Sys2Proof.Machine

/-- The template of the branches (preface to R158): `pc'` is pre-compensated when the branch is taken (R125), and the PC advance
follows in either case (R124). -/
def execBranch (c : Cond) (rs1 rs2 : RegId) (off : BitVec 13) (s : State) : Host.Outcome State Fault Refusal :=
  endExecute s (.ok (if branchTaken c (readReg s rs1) (readReg s rs2) off then redirect s (branchOffset off) else s))

/-- R158. -/
def execBeq (rs1 rs2 : RegId) (off : BitVec 13) (s : State) : Host.Outcome State Fault Refusal := execBranch .EQ rs1 rs2 off s
/-- R159. -/
def execBne (rs1 rs2 : RegId) (off : BitVec 13) (s : State) : Host.Outcome State Fault Refusal := execBranch .NE rs1 rs2 off s
/-- R160, unsigned less-than. -/
def execBlt (rs1 rs2 : RegId) (off : BitVec 13) (s : State) : Host.Outcome State Fault Refusal := execBranch .LTU rs1 rs2 off s
/-- R161, unsigned greater-or-equal. -/
def execBge (rs1 rs2 : RegId) (off : BitVec 13) (s : State) : Host.Outcome State Fault Refusal := execBranch .GEU rs1 rs2 off s

end Sys2Proof.Machine
end

