-- ==== Sys2Proof/Machine/LoadStore.lean ====
section
/-! DEFINITION. `lw` and `sw` (44_load_store.md R164 to R166). -/

namespace Sys2Proof.Machine

/-- R165: `x[rd] <- MemRead(EA, 4)`, pc + 4; the fault of R164 when EA is out of range. -/
def execLw (rd rs1 : RegId) (imm : BitVec 12) (s : State) : Host.Outcome State Fault Refusal :=
  endExecute s (writeResult s rd (memRead s (effectiveAddress s rs1 imm)))

/-- R166: `MemWrite(EA, 4, x[rs2])`, pc + 4; the fault of R164 when EA is out of range. -/
def execSw (rs2 rs1 : RegId) (imm : BitVec 12) (s : State) : Host.Outcome State Fault Refusal :=
  endExecute s (memWrite s (effectiveAddress s rs1 imm) (readReg s rs2))

end Sys2Proof.Machine
end

