-- ==== Sys2Proof/Machine/System.lean ====
section
/-! DEFINITION. The halt instruction (45_system.md R169). -/

namespace Sys2Proof.Machine

/-- R169: `halt <- 1` and the PC advance; the step progressed. -/
def execEbreak (s : State) : Host.Outcome State Fault Refusal := endExecute s (.ok (setHalt s))

end Sys2Proof.Machine
end

