-- ==== Sys2Proof/Machine/Step.lean ====
section
/-! DEFINITION. One step of the block (40_sequencer.md R119), and the state whose next step runs a given word. -/

namespace Sys2Proof.Machine

/-- `step` (R119): guard (R120), fetch (R121), decode (R122), execute and PC advance (R123, R124), info update (R128). Where the
guard fails the step changes nothing (R120). Its Boolean result is `stepResult` (R127). -/
def step (s : State) : Host.Outcome State Fault Refusal :=
  if s.running then
    match decode s.cfg.haltDecode (fetch s) with
    | .ok i    => recordInfo (fetch s) (exec i s)
    | .error _ => .next (stepUnrecognized (fetch s) s)
  else .next s

/-- `s` with the word of a table row where the next fetch reads it, the four bytes at `pc` (R54, R58); nothing else changes. A state
whose `pc` is out of range fetches nothing (R59) and is left as it is. -/
def State.withFetchWord (s : State) (nbits w : Nat) : State :=
  if s.inMem s.pc then { s with mem := s.mem.writeWord s.pc.toNat (tableWord nbits w) } else s

end Sys2Proof.Machine
end

