-- ==== Sys2Proof/Machine/Assembler.lean ====
section
/-! DEFINITION. The assembler as far as it fixes the machine words (30_encoding.md R100 to R118): lines, labels, operands, range
checks, words. It is software around the block (00_scope.md R5); nothing in it touches the state. A source is a list of lines, a
line a list of characters (notes/assumptions/16.md). -/

namespace Sys2Proof.Machine

/-- A line of text or a part of one. -/
abbrev Text := List Char

/-- The errors of R117, every one fatal. -/
inductive AsmError where
  /-- Unreadable source file (R100, R117). -/
  | unreadableSource
  /-- Unknown mnemonic (R105, R117). -/
  | unknownMnemonic
  /-- Wrong operand count or kind (R109, R117). -/
  | malformedOperands
  /-- Register id out of [0,31] (R107, R115). -/
  | registerOutOfRange
  /-- Immediate out of range (R115). -/
  | immediateOutOfRange
  deriving DecidableEq, Repr

/-! ### Lines (R101 to R105) -/

/-- Without its leading and trailing whitespace. -/
def trimText (l : Text) : Text :=
  ((l.dropWhile Char.isWhitespace).reverse.dropWhile Char.isWhitespace).reverse

/-- Everything before the comment marker `#` (R101). -/
def stripComment (l : Text) : Text := l.takeWhile (fun c => c ≠ '#')

/-- What a line is once its comment is gone. -/
inductive SourceLine where
  /-- Dropped (R102). -/
  | blank
  /-- A label declaration, with the trimmed name before the first `:` (R103). -/
  | label (name : Text)
  /-- A program line (R104). -/
  | code (text : Text)
  deriving DecidableEq, Repr

/-- R101 to R104. -/
def classifyLine (l : Text) : SourceLine :=
  if trimText (stripComment l) = [] then .blank
  else if ':' ∈ stripComment l then .label (trimText ((stripComment l).takeWhile (fun c => c ≠ ':')))
  else .code (trimText (stripComment l))

/-- The program lines of a source from index `k` on, and its label table, the latest declaration first, so that it wins (R103). -/
def scanLines : List Text → Nat → List Text × List (Text × Nat)
  | [], _ => ([], [])
  | l :: ls, k =>
    match classifyLine l with
    | .blank      => scanLines ls k
    | .label name => ((scanLines ls k).1, (scanLines ls k).2 ++ [(name, k)])
    | .code text  => (text :: (scanLines ls (k + 1)).1, (scanLines ls (k + 1)).2)

/-- The first index the label table gives a name. -/
def lookupLabel : List (Text × Nat) → Text → Option Nat
  | [], _ => none
  | e :: es, name => if e.1 = name then some e.2 else lookupLabel es name

/-- The parts of a text between commas. -/
def splitCommas : Text → List Text
  | [] => [[]]
  | c :: cs =>
    if c = ',' then [] :: splitCommas cs
    else match splitCommas cs with
      | []      => [[c]]
      | t :: ts => (c :: t) :: ts

/-- The mnemonic of a program line: its first whitespace-delimited token (R105). -/
def mnemonicToken (l : Text) : Text := l.takeWhile (fun c => !c.isWhitespace)

/-- The operands of a program line: the rest, separated by commas, whitespace around them ignored (R105). -/
def operandTokens (l : Text) : List Text :=
  if trimText (l.dropWhile (fun c => !c.isWhitespace)) = [] then []
  else (splitCommas (l.dropWhile (fun c => !c.isWhitespace))).map trimText

/-- The lower-case spelling of R106. -/
def mnemonicOfToken (t : Text) : Option Mnemonic :=
  if t = "add".toList then some .add
  else if t = "sub".toList then some .sub
  else if t = "xor".toList then some .xor
  else if t = "or".toList then some .or
  else if t = "and".toList then some .and
  else if t = "sll".toList then some .sll
  else if t = "srl".toList then some .srl
  else if t = "sra".toList then some .sra
  else if t = "addi".toList then some .addi
  else if t = "xori".toList then some .xori
  else if t = "ori".toList then some .ori
  else if t = "andi".toList then some .andi
  else if t = "lw".toList then some .lw
  else if t = "sw".toList then some .sw
  else if t = "beq".toList then some .beq
  else if t = "bne".toList then some .bne
  else if t = "blt".toList then some .blt
  else if t = "bge".toList then some .bge
  else if t = "ebreak".toList then some .ebreak
  else none

/-! ### Operands (R107, R108, R111, R114, R115) -/

/-- A decimal number: one digit or more. -/
def parseDecimal (t : Text) : Option Nat :=
  if t ≠ [] ∧ t.all Char.isDigit = true then some (t.foldl (fun n c => 10 * n + (c.toNat - '0'.toNat)) 0) else none

/-- A register token, `x` and a decimal id up to 31 (R107). The label table is not tried here: a register position holds a register
token even where a label of that spelling is declared (DESIGN CHOICE, notes/assumptions/25.md). -/
def parseRegister : Text → Except AsmError RegId
  | 'x' :: ds =>
    match parseDecimal ds with
    | some n => if n < 32 then .ok (BitVec.ofNat 5 n) else .error .registerOutOfRange
    | none   => .error .malformedOperands
  | _ => .error .malformedOperands

/-- A decimal integer with an optional leading `-` (R108). -/
def parseInteger : Text → Option Int
  | '-' :: ds => (parseDecimal ds).map (fun n => -(n : Int))
  | t         => (parseDecimal t).map (fun n => (n : Int))

/-- An immediate token on line `j`: a declared label first, `(k − j) * 4` (R114), else a decimal integer (R108). -/
def parseImmediate (labels : List (Text × Nat)) (j : Nat) (t : Text) : Except AsmError Int :=
  match lookupLabel labels t with
  | some k => .ok (((k : Int) - (j : Int)) * 4)
  | none =>
    match parseInteger t with
    | some v => .ok v
    | none   => .error .malformedOperands

/-- The parts of a displacement token `imm(reg)` (R111). -/
def splitDisplacement (t : Text) : Option (Text × Text) :=
  match t.dropWhile (fun c => c ≠ '(') with
  | _ :: r => if r.getLast? = some ')' then some (trimText (t.takeWhile (fun c => c ≠ '(')), trimText r.dropLast) else none
  | []     => none

/-- The range check of an I or S immediate (R115). -/
def checkImm12 (v : Int) : Except AsmError (BitVec 12) :=
  if -2048 ≤ v ∧ v ≤ 2047 then .ok (BitVec.ofInt 12 v) else .error .immediateOutOfRange

/-- The range check of a branch offset: even and in [−4096, 4094] (R115). -/
def checkOffset (v : Int) : Except AsmError (BitVec 13) :=
  if -4096 ≤ v ∧ v ≤ 4094 ∧ v % 2 = 0 then .ok (BitVec.ofInt 13 v) else .error .immediateOutOfRange

/-! ### One line (R109 to R113, R116) -/

/-- An R-format line: exactly three registers (R109), never labels (DESIGN CHOICE, notes/assumptions/25.md). -/
def assembleR (make : RegId → RegId → RegId → Instr) : List Text → Except AsmError Instr
  | [a, b, c] => do
    let rd ← parseRegister a
    let rs1 ← parseRegister b
    let rs2 ← parseRegister c
    .ok (make rd rs1 rs2)
  | _ => .error .malformedOperands

/-- Two registers and an immediate, in the canonical order (R110 to R112). DESIGN CHOICE (notes/assumptions/25.md), unsafe: a label
spelled like a register token (`x1:`) makes `x1` both a register token (R107) and an immediate (R114), and the spec does not say which
wins in a register position; here the register does. In the immediate position the label table comes first, as R108 says. -/
def assembleRegRegImm (labels : List (Text × Nat)) (j : Nat) (make : RegId → RegId → BitVec 12 → Instr) (a b c : Text) :
    Except AsmError Instr := do
  let r1 ← parseRegister a
  let r2 ← parseRegister b
  let v ← parseImmediate labels j c
  let imm ← checkImm12 v
  .ok (make r1 r2 imm)

/-- An I-format ALU line (R110). -/
def assembleI (labels : List (Text × Nat)) (j : Nat) (make : RegId → RegId → BitVec 12 → Instr) :
    List Text → Except AsmError Instr
  | [a, b, c] => assembleRegRegImm labels j make a b c
  | _ => .error .malformedOperands

/-- A `lw` or `sw` line: `reg, imm(reg)` is reordered into `reg, reg, imm` (R111, R112). A second token `imm(reg)` is split before the
label table is tried, so a label of that whole spelling does not count here (DESIGN CHOICE, notes/assumptions/25.md). -/
def assembleMem (labels : List (Text × Nat)) (j : Nat) (make : RegId → RegId → BitVec 12 → Instr) :
    List Text → Except AsmError Instr
  | [a, d] =>
    match splitDisplacement d with
    | some (imm, reg) => assembleRegRegImm labels j make a reg imm
    | none            => .error .malformedOperands
  | [a, b, c] => assembleRegRegImm labels j make a b c
  | _ => .error .malformedOperands

/-- A branch line (R113); a register position never takes a label (DESIGN CHOICE, notes/assumptions/25.md). -/
def assembleB (labels : List (Text × Nat)) (j : Nat) (make : RegId → RegId → BitVec 13 → Instr) :
    List Text → Except AsmError Instr
  | [a, b, c] => do
    let rs1 ← parseRegister a
    let rs2 ← parseRegister b
    let v ← parseImmediate labels j c
    let off ← checkOffset v
    .ok (make rs1 rs2 off)
  | _ => .error .malformedOperands

/-- The instruction of program line `j` (R105 to R116); operand text after `ebreak` is ignored (R116). -/
def assembleLine (labels : List (Text × Nat)) (j : Nat) (l : Text) : Except AsmError Instr :=
  match mnemonicOfToken (mnemonicToken l) with
  | some .add  => assembleR .add (operandTokens l)
  | some .sub  => assembleR .sub (operandTokens l)
  | some .xor  => assembleR .xor (operandTokens l)
  | some .or   => assembleR .or (operandTokens l)
  | some .and  => assembleR .and (operandTokens l)
  | some .sll  => assembleR .sll (operandTokens l)
  | some .srl  => assembleR .srl (operandTokens l)
  | some .sra  => assembleR .sra (operandTokens l)
  | some .addi => assembleI labels j .addi (operandTokens l)
  | some .xori => assembleI labels j .xori (operandTokens l)
  | some .ori  => assembleI labels j .ori (operandTokens l)
  | some .andi => assembleI labels j .andi (operandTokens l)
  | some .lw   => assembleMem labels j .lw (operandTokens l)
  | some .sw   => assembleMem labels j .sw (operandTokens l)
  | some .beq  => assembleB labels j .beq (operandTokens l)
  | some .bne  => assembleB labels j .bne (operandTokens l)
  | some .blt  => assembleB labels j .blt (operandTokens l)
  | some .bge  => assembleB labels j .bge (operandTokens l)
  | some .ebreak => .ok .ebreak
  | none       => .error .unknownMnemonic

/-! ### The program (R100, R104, R114, R116 to R118) -/

/-- The words of the program lines from index `j` on; `ebreak` ends assembly (R116), and any error leaves no words (R117). -/
def assembleLines (labels : List (Text × Nat)) : Nat → List Text → Except AsmError (List Word)
  | _, [] => .ok []
  | j, l :: ls =>
    match assembleLine labels j l with
    | .error e => .error e
    | .ok i =>
      if i = .ebreak then .ok [encode .ebreak]
      else
        match assembleLines labels (j + 1) ls with
        | .error e => .error e
        | .ok ws   => .ok (encode i :: ws)

/-- An opened source: its lines, its program lines and its label table, built when the file is opened (R100, R114). -/
structure Source where
  lines   : List Text
  program : List Text
  labels  : List (Text × Nat)
  deriving DecidableEq, Repr

/-- Opening a source file: `none` is an unreadable one (R100). -/
def openSource : Option (List Text) → Except AsmError Source
  | none    => .error .unreadableSource
  | some ls => .ok { lines := ls, program := (scanLines ls 0).1, labels := (scanLines ls 0).2 }

/-- `assemble()` (R117, R118): a pure function of the program lines and the labels. -/
def assemble (src : Source) : Except AsmError (List Word) := assembleLines src.labels 0 src.program

/-- The image of a program for `load_program`: word `j` as bytes `4j` to `4j+3`, little-endian (R118). -/
def programImage : List Word → List Byte
  | [] => []
  | w :: ws => bytesOfWord w ++ programImage ws

/-- `view_program()` (70_reset_and_hazards.md R195): the assembler's source lines, no block state. -/
def viewProgram (src : Source) : List Text := src.lines

end Sys2Proof.Machine
end

