-- ==== Sys2Proof/Machine/HostOps.lean ====
section
/-! DEFINITION. What the host can do to the block (70_reset_and_hazards.md R187 to R197): the Boolean result of a step, `run`,
`reset`, `load_program`, the view calls; and the run states (40_sequencer.md R132, R202). -/

namespace Sys2Proof.Machine

/-- `step() -> bool` (R119, R127): the state after it, and whether it progressed: the guard passed and no fault was raised. -/
def stepResult (s : State) : State × Bool :=
  match step s with
  | .next t    => (t, s.running && t.fault.isNone)
  | .fault _   => (s, false)
  | .refused _ => (s, false)

/-- `run()` under fuel (R131): `step` until it returns false, at most `n` times; the Boolean says that a step returned false, so
that the run has ended. A run may never end (R131), and then no fuel suffices (notes/assumptions/19.md). -/
def run : Nat → State → State × Bool
  | 0, s => (s, false)
  | n + 1, s => if (stepResult s).2 then run n (stepResult s).1 else ((stepResult s).1, true)

/-- The three run states of R132. -/
inductive RunState where
  | running
  | halted
  | faulted
  deriving DecidableEq, Repr

/-- R132: Faulted when `fault ≠ None`; else Halted when `halt = 1` or the pc is out of range; else Running. -/
def runState (s : State) : RunState :=
  if s.fault.isSome then .faulted
  else if s.halt || !s.inMem s.pc then .halted
  else .running

/-- The first end of R202, a normal halt: `halt = 1` wherever the pc is, and no fault (R132 and R177 keep a fault apart). -/
def endedByHalt (s : State) : Bool := s.halt && s.fault.isNone

/-- The second end of R202: the program ran or branched off the memory. DESIGN CHOICE (notes/assumptions/24.md), unsafe: a state with
`halt = 1` and the pc out of range (after an `ebreak` in the last word of memory) meets the first two ends of R202, and the spec does
not say which it counts as; here it counts as the halt alone, so this end asks for `halt = 0`. -/
def endedOffMemory (s : State) : Bool := !s.halt && s.fault.isNone && !s.inMem s.pc

/-- The third end of R202, a fault, kept apart from the other two (R177). -/
def endedByFault (s : State) : Bool := s.fault.isSome

/-- `reset()` (R187, R188): the zeroed state; the configuration, no state of the block's, stays. -/
def hostReset (s : State) : State := State.resetWith s.cfg

/-- `load_program(bytes)` (R189): the bytes from LOAD_BASE on and the pc, nothing else; an image that does not fit has no
transition (R190). -/
def loadProgram (s : State) (bytes : List Byte) : Host.Outcome State Fault Refusal :=
  if s.cfg.loadBase.toNat + bytes.length ≤ s.cfg.memSize then
    .next { s with mem := s.mem.writeBytes s.cfg.loadBase.toNat bytes, pc := s.cfg.loadBase }
  else .refused .imageTooLarge

/-- The host calls that act on the state (R195). The view calls have no effect (R196). -/
inductive HostCall where
  | step
  | reset
  | loadProgram (bytes : List Byte)
  deriving DecidableEq, Repr

/-- A host call is one atomic transition (R197). -/
def hostCall (c : HostCall) (s : State) : Host.Outcome State Fault Refusal :=
  match c with
  | .step          => step s
  | .reset         => .next (hostReset s)
  | .loadProgram b => loadProgram s b

/-- `view_registers()` (R195): the 32 values. -/
def viewRegisters (s : State) : List Word := s.x.toList

/-- `view_memory()` (R195): all MEM_SIZE bytes. -/
def viewMemory (s : State) : List Byte := (List.range s.cfg.memSize).map s.mem.readByte

/-- `get_pc()` (R195). -/
def getPc (s : State) : Word := s.pc

/-- `view_instr_info()` (R195). -/
def viewInstrInfo (s : State) : Info := s.info

end Sys2Proof.Machine
end

