-- ==== Sys2Proof/Machine/Ports.lean ====
section
/-! DEFINITION. The block as its five sub-blocks and their ports (10_state.md R29, R41 to R46), wired into one datapath. `step` is
the model; that this datapath does what `step` does is a statement of Certificates/Slice0/Obligations.lean. -/

namespace Sys2Proof.Machine

/-! ### Decoder (R41) -/

/-- The outputs of the decoder. -/
structure DecoderOut where
  opcode : BitVec 7
  rd     : RegId
  funct3 : BitVec 3
  rs1    : RegId
  rs2    : RegId
  funct7 : BitVec 7
  immI   : Word
  immS   : Word
  immB   : Word
  format : Format
  op     : Option Mnemonic
  deriving DecidableEq, Repr

/-- The decoder: pure functions of the word (R41), under a setting of HALT_DECODE (R93). -/
def decoderPort (h : HaltDecode) (instr : Word) : DecoderOut :=
  { opcode := opcodeOf instr, rd := rdOf instr, funct3 := funct3Of instr, rs1 := rs1Of instr, rs2 := rs2Of instr,
    funct7 := funct7Of instr, immI := immI instr, immS := immS instr, immB := immB instr, format := formatOf instr,
    op := decodeOp h instr }

/-! ### Control: which instruction uses which port (R28, R29) -/

/-- What a decoded instruction asks of the sub-blocks. -/
structure Control where
  /-- The ALU operation whose result is written, if any. -/
  aluOp    : Option AluOp
  /-- The second ALU operand is the I immediate, not port B (R148). -/
  aluImm   : Bool
  /-- The write port is used (R28). -/
  we       : Bool
  /-- A data read (`lw`). -/
  load     : Bool
  /-- A data write (`sw`). -/
  store    : Bool
  /-- The branch condition, if any (R44). -/
  cond     : Option Cond
  /-- The halt flag is set (R33). -/
  halt     : Bool
  deriving DecidableEq, Repr

/-- No sub-block is used: an unrecognized word (R28, R29). -/
def Control.idle : Control :=
  { aluOp := none, aluImm := false, we := false, load := false, store := false, cond := none, halt := false }

/-- The control signals of each instruction. -/
def control : Option Mnemonic → Control
  | some .add  => { Control.idle with aluOp := some .ADD, we := true }
  | some .sub  => { Control.idle with aluOp := some .SUB, we := true }
  | some .xor  => { Control.idle with aluOp := some .XOR, we := true }
  | some .or   => { Control.idle with aluOp := some .OR, we := true }
  | some .and  => { Control.idle with aluOp := some .AND, we := true }
  | some .sll  => { Control.idle with aluOp := some .SLL, we := true }
  | some .srl  => { Control.idle with aluOp := some .SRL, we := true }
  | some .sra  => { Control.idle with aluOp := some .SRA, we := true }
  | some .addi => { Control.idle with aluOp := some .ADD, aluImm := true, we := true }
  | some .xori => { Control.idle with aluOp := some .XOR, aluImm := true, we := true }
  | some .ori  => { Control.idle with aluOp := some .OR, aluImm := true, we := true }
  | some .andi => { Control.idle with aluOp := some .AND, aluImm := true, we := true }
  | some .lw   => { Control.idle with load := true, we := true }
  | some .sw   => { Control.idle with store := true }
  | some .beq  => { Control.idle with cond := some .EQ }
  | some .bne  => { Control.idle with cond := some .NE }
  | some .blt  => { Control.idle with cond := some .LTU }
  | some .bge  => { Control.idle with cond := some .GEU }
  | some .ebreak => { Control.idle with halt := true }
  | none       => Control.idle

/-! ### Register file (R42) -/

/-- Read port A or B (R42). -/
def readPort (x : Vector Word 32) (ra : RegId) : Word := x[ra.toNat]

/-- Write port W (R42): at the end of a step with `we = 1`. -/
def writePort (x : Vector Word 32) (we : Bool) (wa : RegId) (wd : Word) : Vector Word 32 :=
  if we then x.set wa.toNat wd else x

/-! ### ALU (R43) -/

/-- The outputs of the ALU; `y` is absent when `shift_fault` is 1, where the spec gives no `y` (notes/assumptions/22.md). -/
structure AluOut where
  y          : Option Word
  shiftFault : Bool
  deriving DecidableEq, Repr

/-- The ALU (R43, R135). -/
def aluPort (g : ShiftGe32) (op : AluOp) (a b : Word) : AluOut :=
  match alu g op a b with
  | .ok y    => { y := some y, shiftFault := false }
  | .error _ => { y := none, shiftFault := true }

/-! ### PC sequencer (R45) -/

/-- The inputs of the sequencer; `raised` says that the execute phase of this step raises a fault (R126, second row). -/
structure SequencerIn where
  pc       : Word
  halt     : Bool
  fault    : Option Fault
  raised   : Bool
  isBranch : Bool
  cmp      : Bool
  immB     : Word
  memSize  : Nat
  deriving DecidableEq, Repr

/-- The outputs of the sequencer. -/
structure SequencerOut where
  fetchEnable : Bool
  pcNext      : Word
  progressed  : Bool
  deriving DecidableEq, Repr

/-- `fetch_enable`: the guard of R120. -/
def sequencerEnable (pc : Word) (halt : Bool) (fault : Option Fault) (memSize : Nat) : Bool :=
  fault.isNone && !halt && decide (pc.toNat + 4 ≤ memSize)

/-- The sequencer as the table of R126 gives it, with the net effect of the branch pre-compensation. -/
def sequencerPort (i : SequencerIn) : SequencerOut :=
  { fetchEnable := sequencerEnable i.pc i.halt i.fault i.memSize
    pcNext :=
      if !sequencerEnable i.pc i.halt i.fault i.memSize then i.pc
      else if i.raised then i.pc
      else if i.isBranch && i.cmp && decide (i.immB.toNat % 4 = 0) then i.pc + i.immB
      else i.pc + 4
    progressed := sequencerEnable i.pc i.halt i.fault i.memSize && !i.raised }

/-! ### Memory ports (R46) -/

/-- Whether the data port's address is in the array (R60). -/
def dataInRange (memSize : Nat) (ea : Word) : Bool := decide (ea.toNat + 4 ≤ memSize)

/-! ### The datapath -/

/-- One step of the wired sub-blocks: the state at its end and `progressed` (R45). All reads are of the state at the start (R15);
at most one register write and one data access happen (R28, R46). -/
def datapathStep (s : State) : State × Bool :=
  let d := decoderPort s.cfg.haltDecode (s.mem.readWord s.pc.toNat)
  let c := control d.op
  let a := readPort s.x d.rs1
  let b := readPort s.x d.rs2
  let r := c.aluOp.map fun op => aluPort s.cfg.shiftGe32 op a (if c.aluImm then d.immI else b)
  let ea := a + (if c.store then d.immS else d.immI)
  let raised : Option Fault :=
    if (r.map AluOut.shiftFault).getD false then some .shiftOutOfRange
    else if (c.load || c.store) && !dataInRange s.cfg.memSize ea then some (.memOutOfRange ea)
    else none
  let q := sequencerPort
    { pc := s.pc, halt := s.halt, fault := s.fault, raised := raised.isSome, isBranch := c.cond.isSome,
      cmp := (c.cond.map fun k => evalCond k a b).getD false, immB := d.immB, memSize := s.cfg.memSize }
  let wd := if c.load then s.mem.readWord ea.toNat else ((r.bind AluOut.y).getD 0)
  if !q.fetchEnable then (s, q.progressed)
  else if raised.isSome then ({ s with fault := raised }, q.progressed)
  else
    ({ x := writePort s.x c.we d.rd wd
       pc := q.pcNext
       halt := s.halt || c.halt
       mem := if c.store then s.mem.writeWord ea.toNat b else s.mem
       info := infoOf s.cfg.haltDecode (s.mem.readWord s.pc.toNat)
       fault := s.fault
       cfg := s.cfg }, q.progressed)

end Sys2Proof.Machine
end

