-- ==== Sys2Proof/Safety.lean ====
section
/-! DEFINITION. The terms in which claims speak of runs: the invariant of the block's states, and what an operation leaves
unchanged. -/

namespace Sys2Proof

/-- The register an instruction writes, if any (10_state.md R28). -/
def Instr.dest : Instr → Option RegId
  | .add rd _ _ => some rd
  | .sub rd _ _ => some rd
  | .xor rd _ _ => some rd
  | .or rd _ _ => some rd
  | .and rd _ _ => some rd
  | .sll rd _ _ => some rd
  | .srl rd _ _ => some rd
  | .sra rd _ _ => some rd
  | .addi rd _ _ => some rd
  | .xori rd _ _ => some rd
  | .ori rd _ _ => some rd
  | .andi rd _ _ => some rd
  | .lw rd _ _ => some rd
  | .sw _ _ _ => none
  | .beq _ _ _ => none
  | .bne _ _ _ => none
  | .blt _ _ _ => none
  | .bge _ _ _ => none
  | .ebreak => none

/-- The encoding of a register-register instruction: R format, opcode 0x33, funct3, funct7 and the operand fields (R72). -/
abbrev EncodesR (i : Instr) (f3 : BitVec 3) (f7 : BitVec 7) (rd rs1 rs2 : RegId) : Prop :=
  opcodeOf (encode i) = 0x33 ∧ funct3Of (encode i) = f3 ∧ funct7Of (encode i) = f7 ∧
  rdOf (encode i) = rd ∧ rs1Of (encode i) = rs1 ∧ rs2Of (encode i) = rs2

/-- The encoding of an I-format instruction (R73). -/
abbrev EncodesI (i : Instr) (op : BitVec 7) (f3 : BitVec 3) (rd rs1 : RegId) (imm : BitVec 12) : Prop :=
  opcodeOf (encode i) = op ∧ funct3Of (encode i) = f3 ∧ rdOf (encode i) = rd ∧ rs1Of (encode i) = rs1 ∧
  immIField (encode i) = imm

/-- The encoding of `sw`: S format, opcode 0x23, funct3 010 (R74). -/
abbrev EncodesS (i : Instr) (rs2 rs1 : RegId) (imm : BitVec 12) : Prop :=
  opcodeOf (encode i) = 0x23 ∧ funct3Of (encode i) = 0b010 ∧ rs1Of (encode i) = rs1 ∧ rs2Of (encode i) = rs2 ∧
  immSField (encode i) = imm

/-- The encoding of a branch: B format, opcode 0x63, funct3; the offset without its bit 0, which is not encoded (R75, R85). -/
abbrev EncodesB (i : Instr) (f3 : BitVec 3) (rs1 rs2 : RegId) (off : BitVec 13) : Prop :=
  opcodeOf (encode i) = 0x63 ∧ funct3Of (encode i) = f3 ∧ rs1Of (encode i) = rs1 ∧ rs2Of (encode i) = rs2 ∧
  immBField (encode i) = off &&& 0x1FFE#13

end Sys2Proof

namespace Sys2Proof.Machine

/-- The invariant: the configuration meets R10; the memory is in canonical form and inside the array (R36); the pc is a multiple
of 4 (10_state.md R32). -/
abbrev State.Inv (s : State) : Prop :=
  s.cfg.Valid ∧ s.mem.wf ∧ s.mem.within s.cfg.memSize ∧ s.pc.toNat % 4 = 0

/-- Every register is unchanged. -/
abbrev RegsSame (s t : State) : Prop := ∀ r : RegId, readReg t r = readReg s r

/-- Every register but `rd` is unchanged. -/
abbrev RegsSameBut (s t : State) (rd : RegId) : Prop := ∀ r : RegId, r ≠ rd → readReg t r = readReg s r

/-- Every byte of memory reads as before. -/
abbrev MemSame (s t : State) : Prop := ∀ a : Nat, t.mem.readByte a = s.mem.readByte a

/-- Every byte of memory outside the four at `ea` reads as before. -/
abbrev MemSameBut (s t : State) (ea : Word) : Prop :=
  ∀ a : Nat, (a < ea.toNat ∨ ea.toNat + 4 ≤ a) → t.mem.readByte a = s.mem.readByte a

/-- The state outside registers, pc, halt and memory is unchanged: info, fault, configuration. -/
abbrev RestSame (s t : State) : Prop := t.info = s.info ∧ t.fault = s.fault ∧ t.cfg = s.cfg

/-- What an instruction that writes one register leaves: `x[rd] = v`, the pc advanced, everything else as it was. -/
abbrev WritesOnly (s t : State) (rd : RegId) (v : Word) : Prop :=
  readReg t rd = v ∧ RegsSameBut s t rd ∧ t.pc = s.pc + 4 ∧ t.halt = s.halt ∧ MemSame s t ∧ RestSame s t

/-- The pc after an instruction that raises no fault, as the table of 40_sequencer.md R126 gives it with the conditions of
43_branch.md R155 and R156: the branch's own address plus its offset when it is taken, the next word otherwise. -/
def nextPcOf (s : State) : Instr → Word
  | .beq rs1 rs2 off =>
    if readReg s rs1 = readReg s rs2 ∧ (sext32 off).toNat % 4 = 0 then s.pc + sext32 off else s.pc + 4
  | .bne rs1 rs2 off =>
    if readReg s rs1 ≠ readReg s rs2 ∧ (sext32 off).toNat % 4 = 0 then s.pc + sext32 off else s.pc + 4
  | .blt rs1 rs2 off =>
    if (readReg s rs1).toNat < (readReg s rs2).toNat ∧ (sext32 off).toNat % 4 = 0 then s.pc + sext32 off else s.pc + 4
  | .bge rs1 rs2 off =>
    if (readReg s rs1).toNat ≥ (readReg s rs2).toNat ∧ (sext32 off).toNat % 4 = 0 then s.pc + sext32 off else s.pc + 4
  | _ => s.pc + 4

end Sys2Proof.Machine
end

