-- ==== Sys2Proof/Certificates/Slice0/Obligations.lean ====
section
/-! DEFINITION. The statements for the provers, each about the block and none about a program. A statement over `State` holds in
every configuration, since the configuration is a field of the state (notes/assumptions/1.md). -/

open Sys2Proof Sys2Proof.Machine

/-! ### Encoding and decoding -/

/-- 30_encoding.md R90: decoding an encoded well-formed instruction gives it back, under every HALT_DECODE; an odd branch offset
`o` comes back as `o − 1`. -/
def Obligations.DecodeOfEncodeIsIdentity : Prop :=
  (∀ (h : HaltDecode) (i : Instr), i.wf = true → decode h (encode i) = .ok i) ∧
  (∀ (h : HaltDecode) (a b : RegId) (off : BitVec 13), offsetEven off = false →
    decode h (encode (.beq a b off)) = .ok (.beq a b (off - 1)) ∧
    decode h (encode (.bne a b off)) = .ok (.bne a b (off - 1)) ∧
    decode h (encode (.blt a b off)) = .ok (.blt a b (off - 1)) ∧
    decode h (encode (.bge a b off)) = .ok (.bge a b (off - 1)))

/-- The other direction: what the decoder gives is well formed, and encodes to the word it came from, but for the halt, whose
ignored bits (R93) are not kept. -/
def Obligations.EncodeOfDecodeIsIdentity : Prop :=
  ∀ (h : HaltDecode) (w : Word) (i : Instr), decode h w = .ok i →
    i.wf = true ∧ (i ≠ .ebreak → encode i = w) ∧ (h = .exactWord → encode i = w)

/-- 30_encoding.md R99: each row of spec/opcode_table.json selects exactly the words the decoder gives its instruction to under
HALT_DECODE = canonical, and a word that matches no row is unrecognized. -/
def Obligations.OpcodeTableHoldsTheDecoding : Prop :=
  ∀ w : Word,
    (∀ r ∈ opcodeTable, r.selects w = true ↔ ∃ i, decode .canonical w = .ok i ∧ i.mnemonic = r.mnemonic) ∧
    ((∀ r ∈ opcodeTable, r.selects w = false) ↔ ∃ e, decode .canonical w = .error e)

/-- 30_encoding.md R93: which words of opcode 0x73 are the halt under each setting, that every other one is unrecognized, and that
all settings agree on 0x00100073. -/
def Obligations.HaltDecodeSelectsEbreak : Prop :=
  ∀ w : Word, w.extractLsb' 0 7 = 0x73 →
    (decode .canonical w = .ok .ebreak ↔ w.extractLsb' 12 3 = 0 ∧ w.extractLsb' 20 12 = 0x001) ∧
    decode .opcodeOnly w = .ok .ebreak ∧
    (decode .exactWord w = .ok .ebreak ↔ w = 0x00100073) ∧
    (∀ h : HaltDecode, decode h w ≠ .ok .ebreak → decode h w = .error (.unknownSelector .I)) ∧
    (∀ h : HaltDecode, decode h 0x00100073 = .ok .ebreak) ∧ encode .ebreak = 0x00100073

/-- 30_encoding.md R96: the words the decoder rejects are exactly those of its four cases. -/
def Obligations.UnrecognizedWordsAreTheFourCases : Prop :=
  ∀ (h : HaltDecode) (w : Word),
    (∃ e, decode h w = .error e) ↔
      ((opcodeOf w ∉ ([0x33, 0x13, 0x03, 0x73, 0x23, 0x63] : List (BitVec 7))) ∨
       (opcodeOf w = 0x33 ∧ (funct3Of w, funct7Of w) ∉
          ([(0b000, 0b0000000), (0b000, 0b0100000), (0b001, 0b0000000), (0b100, 0b0000000), (0b101, 0b0000000),
            (0b101, 0b0100000), (0b110, 0b0000000), (0b111, 0b0000000)] : List (BitVec 3 × BitVec 7))) ∨
       (opcodeOf w = 0x13 ∧ funct3Of w ∉ ([0b000, 0b100, 0b110, 0b111] : List (BitVec 3))) ∨
       (opcodeOf w = 0x03 ∧ funct3Of w ≠ 0b010) ∨
       (opcodeOf w = 0x23 ∧ funct3Of w ≠ 0b010) ∨
       (opcodeOf w = 0x63 ∧ funct3Of w ∉ ([0b000, 0b001, 0b100, 0b101] : List (BitVec 3))) ∨
       (opcodeOf w = 0x73 ∧
          ((h = .canonical ∧ ¬ (funct3Of w = 0 ∧ w.extractLsb' 20 12 = 0x001)) ∨ (h = .exactWord ∧ w ≠ 0x00100073))))

/-- Words written out from the spec's encodings (the examples of R138 to R169 and of 95_test_vectors.md, part D), one or more for
each family, and words that are no instruction. -/
def Obligations.SpecWordsDecodeAsWritten : Prop :=
  decode .canonical 0x002081B3 = .ok (.add 3 1 2) ∧ decode .canonical 0x402081B3 = .ok (.sub 3 1 2) ∧
  decode .canonical 0x4020D1B3 = .ok (.sra 3 1 2) ∧ decode .canonical 0x00500093 = .ok (.addi 1 0 5) ∧
  decode .canonical 0x80008193 = .ok (.addi 3 1 0x800) ∧ decode .canonical 0xFFC0A183 = .ok (.lw 3 1 0xFFC) ∧
  decode .canonical 0xFE20AE23 = .ok (.sw 2 1 0xFFC) ∧ decode .canonical 0x7E20AFA3 = .ok (.sw 2 1 0x7FF) ∧
  decode .canonical 0xFE209CE3 = .ok (.bne 1 2 0x1FF8) ∧ decode .canonical 0x80208063 = .ok (.beq 1 2 0x1000) ∧
  decode .canonical 0x7E208FE3 = .ok (.beq 1 2 0x0FFE) ∧ decode .canonical 0x00100073 = .ok .ebreak ∧
  decode .canonical 0x001080F3 = .ok .ebreak ∧
  decode .canonical 0x00000000 = .error .unknownOpcode ∧ decode .canonical 0x0020A1B3 = .error (.unknownSelector .R) ∧
  decode .canonical 0x00209093 = .error (.unknownSelector .I) ∧ decode .canonical 0x00209023 = .error (.unknownSelector .S) ∧
  decode .canonical 0x0020E463 = .error (.unknownSelector .B) ∧ decode .canonical 0x00200073 = .error (.unknownSelector .I)

/-- 30_encoding.md R81: extending a field of up to 16 bits through the 16-bit container and then to 32 bits gives the bits, and the
signed value, of `sext_32`. -/
def Obligations.SignExtensionContainerAgrees : Prop :=
  ∀ (n : Nat) (f : BitVec n), n ≤ 16 →
    sextContainer f = sext32 f ∧
    (((f.setWidth 16) <<< (16 - n)).sshiftRight (16 - n)).toInt = (sext32 f).toInt

/-- 30_encoding.md R82 to R84: every bit of the three immediates as a bit of the word, and their ranges of values. -/
def Obligations.ImmediateBitsAndRanges : Prop :=
  ∀ w : Word,
    (∀ k : Nat, k < 32 →
      (immI w).getLsbD k = (if k < 11 then w.getLsbD (k + 20) else w.getLsbD 31) ∧
      (immS w).getLsbD k = (if k < 5 then w.getLsbD (k + 7) else if k < 11 then w.getLsbD (k + 20) else w.getLsbD 31) ∧
      (immB w).getLsbD k =
        (if k = 0 then false else if k < 5 then w.getLsbD (k + 7) else if k < 11 then w.getLsbD (k + 20)
         else if k = 11 then w.getLsbD 7 else w.getLsbD 31)) ∧
    (-2048 ≤ (immI w).toInt ∧ (immI w).toInt ≤ 2047) ∧
    (-2048 ≤ (immS w).toInt ∧ (immS w).toInt ≤ 2047) ∧
    (-4096 ≤ (immB w).toInt ∧ (immB w).toInt ≤ 4094 ∧ (immB w).toInt % 2 = 0)

/-- The record of 10_state.md R37 for the word of each instruction: the fields its format has, 0 for the others. -/
def Obligations.InfoOfInstructionWord : Prop :=
  ∀ (h : HaltDecode) (i : Instr), i.wf = true →
    (infoOf h (encode i)).format = i.mnemonic.format ∧ (infoOf h (encode i)).mnemonic = some i.mnemonic ∧
    (infoOf h (encode i)).unrecognized = false ∧
    (match i with
     | .add rd rs1 rs2 | .sub rd rs1 rs2 | .xor rd rs1 rs2 | .or rd rs1 rs2
     | .and rd rs1 rs2 | .sll rd rs1 rs2 | .srl rd rs1 rs2 | .sra rd rs1 rs2 =>
       (infoOf h (encode i)).rd = rd ∧ (infoOf h (encode i)).rs1 = rs1 ∧ (infoOf h (encode i)).rs2 = rs2 ∧
       (infoOf h (encode i)).imm = 0
     | .addi rd rs1 imm | .xori rd rs1 imm | .ori rd rs1 imm | .andi rd rs1 imm | .lw rd rs1 imm =>
       (infoOf h (encode i)).rd = rd ∧ (infoOf h (encode i)).rs1 = rs1 ∧ (infoOf h (encode i)).rs2 = 0 ∧
       (infoOf h (encode i)).imm = imm.signExtend 32
     | .sw rs2 rs1 imm =>
       (infoOf h (encode i)).rd = 0 ∧ (infoOf h (encode i)).rs1 = rs1 ∧ (infoOf h (encode i)).rs2 = rs2 ∧
       (infoOf h (encode i)).imm = imm.signExtend 32
     | .beq rs1 rs2 off | .bne rs1 rs2 off | .blt rs1 rs2 off | .bge rs1 rs2 off =>
       (infoOf h (encode i)).rd = 0 ∧ (infoOf h (encode i)).rs1 = rs1 ∧ (infoOf h (encode i)).rs2 = rs2 ∧
       (infoOf h (encode i)).imm = off.signExtend 32
     | .ebreak =>
       (infoOf h (encode i)).rd = 0 ∧ (infoOf h (encode i)).rs1 = 0 ∧ (infoOf h (encode i)).rs2 = 0 ∧
       (infoOf h (encode i)).imm = 1)

/-! ### Results of the instructions: each answers a next state, with its whole effect and its frame -/

/-- 41_alu_register.md R138, R139: sum and difference modulo 2^32; nothing but `x[rd]` and the pc changes. -/
def Obligations.AddSubResults : Prop :=
  ∀ (rd rs1 rs2 : RegId) (s : State),
    EncodesR (.add rd rs1 rs2) 0b000 0b0000000 rd rs1 rs2 ∧ EncodesR (.sub rd rs1 rs2) 0b000 0b0100000 rd rs1 rs2 ∧
    (∃ t, exec (.add rd rs1 rs2) s = .next t ∧
      WritesOnly s t rd (BitVec.ofNat 32 ((readReg s rs1).toNat + (readReg s rs2).toNat))) ∧
    (∃ t, exec (.sub rd rs1 rs2) s = .next t ∧
      WritesOnly s t rd (BitVec.ofInt 32 (((readReg s rs1).toNat : Int) - ((readReg s rs2).toNat : Int))))

/-- 41_alu_register.md R140 to R142: the bitwise results, bit by bit; nothing but `x[rd]` and the pc changes. -/
def Obligations.LogicResults : Prop :=
  ∀ (rd rs1 rs2 : RegId) (s : State),
    EncodesR (.xor rd rs1 rs2) 0b100 0b0000000 rd rs1 rs2 ∧ EncodesR (.or rd rs1 rs2) 0b110 0b0000000 rd rs1 rs2 ∧
    EncodesR (.and rd rs1 rs2) 0b111 0b0000000 rd rs1 rs2 ∧
    (∃ t v, exec (.xor rd rs1 rs2) s = .next t ∧ WritesOnly s t rd v ∧
      ∀ k : Nat, k < 32 → v.getLsbD k = ((readReg s rs1).getLsbD k != (readReg s rs2).getLsbD k)) ∧
    (∃ t v, exec (.or rd rs1 rs2) s = .next t ∧ WritesOnly s t rd v ∧
      ∀ k : Nat, k < 32 → v.getLsbD k = ((readReg s rs1).getLsbD k || (readReg s rs2).getLsbD k)) ∧
    (∃ t v, exec (.and rd rs1 rs2) s = .next t ∧ WritesOnly s t rd v ∧
      ∀ k : Nat, k < 32 → v.getLsbD k = ((readReg s rs1).getLsbD k && (readReg s rs2).getLsbD k))

/-- 41_alu_register.md R143 with R136: `sll` by the whole value of `x[rs2]`, under every setting of SHIFT_GE32. -/
def Obligations.SllResult : Prop :=
  ∀ (rd rs1 rs2 : RegId) (s : State),
    EncodesR (.sll rd rs1 rs2) 0b001 0b0000000 rd rs1 rs2 ∧
    ((readReg s rs2).toNat < 32 → ∃ t, exec (.sll rd rs1 rs2) s = .next t ∧
      WritesOnly s t rd (BitVec.ofNat 32 ((readReg s rs1).toNat * 2 ^ (readReg s rs2).toNat))) ∧
    (32 ≤ (readReg s rs2).toNat → s.cfg.shiftGe32 = .mathematical → ∃ t, exec (.sll rd rs1 rs2) s = .next t ∧
      WritesOnly s t rd 0) ∧
    (32 ≤ (readReg s rs2).toNat → s.cfg.shiftGe32 = .mask5 → ∃ t, exec (.sll rd rs1 rs2) s = .next t ∧
      WritesOnly s t rd (BitVec.ofNat 32 ((readReg s rs1).toNat * 2 ^ ((readReg s rs2).toNat % 32)))) ∧
    (32 ≤ (readReg s rs2).toNat → s.cfg.shiftGe32 = .fault →
      exec (.sll rd rs1 rs2) s = .next { s with fault := some .shiftOutOfRange })

/-- 41_alu_register.md R144 with R136: `srl`, zero fill. -/
def Obligations.SrlResult : Prop :=
  ∀ (rd rs1 rs2 : RegId) (s : State),
    EncodesR (.srl rd rs1 rs2) 0b101 0b0000000 rd rs1 rs2 ∧
    ((readReg s rs2).toNat < 32 → ∃ t, exec (.srl rd rs1 rs2) s = .next t ∧
      WritesOnly s t rd (BitVec.ofNat 32 ((readReg s rs1).toNat / 2 ^ (readReg s rs2).toNat))) ∧
    (32 ≤ (readReg s rs2).toNat → s.cfg.shiftGe32 = .mathematical → ∃ t, exec (.srl rd rs1 rs2) s = .next t ∧
      WritesOnly s t rd 0) ∧
    (32 ≤ (readReg s rs2).toNat → s.cfg.shiftGe32 = .mask5 → ∃ t, exec (.srl rd rs1 rs2) s = .next t ∧
      WritesOnly s t rd (BitVec.ofNat 32 ((readReg s rs1).toNat / 2 ^ ((readReg s rs2).toNat % 32)))) ∧
    (32 ≤ (readReg s rs2).toNat → s.cfg.shiftGe32 = .fault →
      exec (.srl rd rs1 rs2) s = .next { s with fault := some .shiftOutOfRange })

/-- 41_alu_register.md R145 with R136, R137: `sra` divides the signed value, rounding down: sign fill. -/
def Obligations.SraResult : Prop :=
  ∀ (rd rs1 rs2 : RegId) (s : State),
    EncodesR (.sra rd rs1 rs2) 0b101 0b0100000 rd rs1 rs2 ∧
    ((readReg s rs2).toNat < 32 → ∃ t, exec (.sra rd rs1 rs2) s = .next t ∧
      WritesOnly s t rd (BitVec.ofInt 32 ((readReg s rs1).toInt / 2 ^ (readReg s rs2).toNat))) ∧
    (32 ≤ (readReg s rs2).toNat → s.cfg.shiftGe32 = .mathematical → ∃ t, exec (.sra rd rs1 rs2) s = .next t ∧
      WritesOnly s t rd (if (readReg s rs1).toInt < 0 then 0xFFFFFFFF else 0)) ∧
    (32 ≤ (readReg s rs2).toNat → s.cfg.shiftGe32 = .mask5 → ∃ t, exec (.sra rd rs1 rs2) s = .next t ∧
      WritesOnly s t rd (BitVec.ofInt 32 ((readReg s rs1).toInt / 2 ^ ((readReg s rs2).toNat % 32)))) ∧
    (32 ≤ (readReg s rs2).toNat → s.cfg.shiftGe32 = .fault →
      exec (.sra rd rs1 rs2) s = .next { s with fault := some .shiftOutOfRange })

/-- 42_alu_immediate.md R150: the sum with the signed immediate modulo 2^32. -/
def Obligations.AddiResult : Prop :=
  ∀ (rd rs1 : RegId) (imm : BitVec 12) (s : State),
    EncodesI (.addi rd rs1 imm) 0x13 0b000 rd rs1 imm ∧
    ∃ t, exec (.addi rd rs1 imm) s = .next t ∧
      WritesOnly s t rd (BitVec.ofInt 32 (((readReg s rs1).toNat : Int) + imm.toInt))

/-- 42_alu_immediate.md R149, R151 to R153: the bitwise results against the sign-extended immediate, whose bits 31 to 12 are copies
of its bit 11. -/
def Obligations.LogicImmediateResults : Prop :=
  ∀ (rd rs1 : RegId) (imm : BitVec 12) (s : State),
    EncodesI (.xori rd rs1 imm) 0x13 0b100 rd rs1 imm ∧ EncodesI (.ori rd rs1 imm) 0x13 0b110 rd rs1 imm ∧
    EncodesI (.andi rd rs1 imm) 0x13 0b111 rd rs1 imm ∧
    (∃ t v, exec (.xori rd rs1 imm) s = .next t ∧ WritesOnly s t rd v ∧
      ∀ k : Nat, k < 32 → v.getLsbD k = ((readReg s rs1).getLsbD k != imm.getLsbD (min k 11))) ∧
    (∃ t v, exec (.ori rd rs1 imm) s = .next t ∧ WritesOnly s t rd v ∧
      ∀ k : Nat, k < 32 → v.getLsbD k = ((readReg s rs1).getLsbD k || imm.getLsbD (min k 11))) ∧
    (∃ t v, exec (.andi rd rs1 imm) s = .next t ∧ WritesOnly s t rd v ∧
      ∀ k : Nat, k < 32 → v.getLsbD k = ((readReg s rs1).getLsbD k && imm.getLsbD (min k 11)))

/-- 44_load_store.md R164, R165: `lw` at any EA up to MEM_SIZE − 4, aligned or not, reads the four bytes there; beyond, the fault
with EA and nothing else. -/
def Obligations.LwResult : Prop :=
  ∀ (rd rs1 : RegId) (imm : BitVec 12) (s : State), s.cfg.Valid →
    EncodesI (.lw rd rs1 imm) 0x03 0b010 rd rs1 imm ∧
    effectiveAddress s rs1 imm = readReg s rs1 + imm.signExtend 32 ∧
    ((effectiveAddress s rs1 imm).toNat ≤ s.cfg.memSize - 4 → ∃ t v, exec (.lw rd rs1 imm) s = .next t ∧ WritesOnly s t rd v ∧
      ∀ k : Nat, k < 4 → v.extractLsb' (8 * k) 8 = s.mem.readByte ((effectiveAddress s rs1 imm).toNat + k)) ∧
    ((effectiveAddress s rs1 imm).toNat > s.cfg.memSize - 4 →
      exec (.lw rd rs1 imm) s = .next { s with fault := some (.memOutOfRange (effectiveAddress s rs1 imm)) })

/-- 44_load_store.md R164, R166: `sw` stores the four bytes of `x[rs2]` at EA, lowest first, and nothing else but the pc changes;
beyond MEM_SIZE − 4, the fault with EA and nothing else. -/
def Obligations.SwResult : Prop :=
  ∀ (rs2 rs1 : RegId) (imm : BitVec 12) (s : State), s.cfg.Valid →
    EncodesS (.sw rs2 rs1 imm) rs2 rs1 imm ∧
    effectiveAddress s rs1 imm = readReg s rs1 + imm.signExtend 32 ∧
    ((effectiveAddress s rs1 imm).toNat ≤ s.cfg.memSize - 4 → ∃ t, exec (.sw rs2 rs1 imm) s = .next t ∧
      (∀ k : Nat, k < 4 →
        t.mem.readByte ((effectiveAddress s rs1 imm).toNat + k) = (readReg s rs2).extractLsb' (8 * k) 8) ∧
      MemSameBut s t (effectiveAddress s rs1 imm) ∧ RegsSame s t ∧ t.pc = s.pc + 4 ∧ t.halt = s.halt ∧ RestSame s t) ∧
    ((effectiveAddress s rs1 imm).toNat > s.cfg.memSize - 4 →
      exec (.sw rs2 rs1 imm) s = .next { s with fault := some (.memOutOfRange (effectiveAddress s rs1 imm)) })

/-- 43_branch.md R158 to R161: each branch goes to its own address plus its offset exactly when its condition holds and the offset
is a multiple of 4, to the next word otherwise, and changes nothing else; the order comparisons are unsigned. -/
def Obligations.BranchResults : Prop :=
  ∀ (rs1 rs2 : RegId) (off : BitVec 13) (s : State),
    EncodesB (.beq rs1 rs2 off) 0b000 rs1 rs2 off ∧ EncodesB (.bne rs1 rs2 off) 0b001 rs1 rs2 off ∧
    EncodesB (.blt rs1 rs2 off) 0b100 rs1 rs2 off ∧ EncodesB (.bge rs1 rs2 off) 0b101 rs1 rs2 off ∧
    (∃ t, exec (.beq rs1 rs2 off) s = .next t ∧ RegsSame s t ∧ t.halt = s.halt ∧ MemSame s t ∧ RestSame s t ∧
      t.pc = if readReg s rs1 = readReg s rs2 ∧ off.toInt % 4 = 0 then s.pc + off.signExtend 32 else s.pc + 4) ∧
    (∃ t, exec (.bne rs1 rs2 off) s = .next t ∧ RegsSame s t ∧ t.halt = s.halt ∧ MemSame s t ∧ RestSame s t ∧
      t.pc = if readReg s rs1 ≠ readReg s rs2 ∧ off.toInt % 4 = 0 then s.pc + off.signExtend 32 else s.pc + 4) ∧
    (∃ t, exec (.blt rs1 rs2 off) s = .next t ∧ RegsSame s t ∧ t.halt = s.halt ∧ MemSame s t ∧ RestSame s t ∧
      t.pc = if (readReg s rs1).toNat < (readReg s rs2).toNat ∧ off.toInt % 4 = 0 then s.pc + off.signExtend 32
             else s.pc + 4) ∧
    (∃ t, exec (.bge rs1 rs2 off) s = .next t ∧ RegsSame s t ∧ t.halt = s.halt ∧ MemSame s t ∧ RestSame s t ∧
      t.pc = if (readReg s rs1).toNat ≥ (readReg s rs2).toNat ∧ off.toInt % 4 = 0 then s.pc + off.signExtend 32
             else s.pc + 4)

/-- 45_system.md R169: the halt flag set and the pc advanced, nothing else changed; as a step it returns true, and the next step
returns false and changes nothing. -/
def Obligations.EbreakResult : Prop :=
  encode .ebreak = 0x00100073 ∧ ∀ s : State,
    (∃ t, exec .ebreak s = .next t ∧ t.halt = true ∧ t.pc = s.pc + 4 ∧ RegsSame s t ∧ MemSame s t ∧ RestSame s t) ∧
    (s.running = true → decode s.cfg.haltDecode (fetch s) = .ok .ebreak →
      ∃ t, stepResult s = (t, true) ∧ t.halt = true ∧ t.pc = s.pc + 4 ∧ RegsSame s t ∧ MemSame s t ∧ stepResult t = (t, false))

/-- 10_state.md R27: register 0 is an ordinary register: what is written to it is read back, and `addi x0, x0, 9` adds 9 to it. -/
def Obligations.RegisterZeroIsWritable : Prop :=
  (∀ (s : State) (v : Word), readReg (writeReg s 0 v) 0 = v ∧ ∀ r : RegId, r ≠ 0 → readReg (writeReg s 0 v) r = readReg s r) ∧
  (∀ s : State, readReg s 0 = 0 → ∃ t u : State, exec (.addi 0 0 9) s = .next t ∧ readReg t 0 = 9 ∧
    exec (.add 4 0 0) t = .next u ∧ readReg u 4 = 18)

/-- 44_load_store.md R167: a store and then a load of the same address give back the stored value, for any registers and any
displacement whose EA is in range. -/
def Obligations.StoreThenLoadReturnsValue : Prop :=
  ∀ (rd rs2 rs1 : RegId) (imm : BitVec 12) (s : State), s.cfg.Valid →
    (effectiveAddress s rs1 imm).toNat ≤ s.cfg.memSize - 4 →
    ∃ t u, exec (.sw rs2 rs1 imm) s = .next t ∧ exec (.lw rd rs1 imm) t = .next u ∧ readReg u rd = readReg s rs2

/-! ### Memory -/

/-- 20_memory.md R56, R57, R60: in range a read gives the four bytes, lowest first, and has no effect; a write stores them and
changes no other byte and nothing else; out of range both give the fault with the address. -/
def Obligations.AccessPrimitives : Prop :=
  ∀ (s : State) (a v : Word), s.cfg.Valid →
    (a.toNat ≤ s.cfg.memSize - 4 →
      memRead s a = .ok (s.mem.readByte (a.toNat + 3) ++ s.mem.readByte (a.toNat + 2) ++ s.mem.readByte (a.toNat + 1)
        ++ s.mem.readByte a.toNat : BitVec (8 + 8 + 8 + 8)) ∧
      ∃ t, memWrite s a v = .ok t ∧
        t.mem.readByte a.toNat = v.extractLsb' 0 8 ∧ t.mem.readByte (a.toNat + 1) = v.extractLsb' 8 8 ∧
        t.mem.readByte (a.toNat + 2) = v.extractLsb' 16 8 ∧ t.mem.readByte (a.toNat + 3) = v.extractLsb' 24 8 ∧
        MemSameBut s t a ∧ RegsSame s t ∧ t.pc = s.pc ∧ t.halt = s.halt ∧ RestSame s t) ∧
    (a.toNat > s.cfg.memSize - 4 →
      memRead s a = .error (.memOutOfRange a) ∧ memWrite s a v = .error (.memOutOfRange a))

/-- 20_memory.md R63: each byte of a word read after a word write is the written word's byte where the two overlap, and what was
there elsewhere; and the rule's example. -/
def Obligations.OverlappingWordsShareBytes : Prop :=
  (∀ (m : Memory) (a b k : Nat) (v : Word), k < 4 →
    ((m.writeWord a v).readWord b).extractLsb' (8 * k) 8 =
      if a ≤ b + k ∧ b + k < a + 4 then v.extractLsb' (8 * (b + k - a)) 8 else m.readByte (b + k)) ∧
  (∀ m : Memory, ((m.writeWord 256 0x11223344).writeWord 260 0x55667788).readWord 258 = 0x77881122)

/-- The model's representation (notes/assumptions/8.md): two memories in canonical form that read the same at every address are equal
data. -/
def Obligations.CanonicalMemoryIsExtensional : Prop :=
  ∀ m n : Memory, m.wf → n.wf → (∀ a : Nat, m.readByte a = n.readByte a) → m = n

/-- 20_memory.md R70: a store over the next instruction's word is what the next step fetches. -/
def Obligations.StoreIsSeenByNextFetch : Prop :=
  ∀ (rs2 rs1 : RegId) (imm : BitVec 12) (s : State), s.running = true →
    decode s.cfg.haltDecode (fetch s) = .ok (.sw rs2 rs1 imm) → effectiveAddress s rs1 imm = s.pc + 4 →
    s.inMem (s.pc + 4) = true →
    ∃ t, step s = .next t ∧ t.running = true ∧ fetch t = readReg s rs2 ∧
      ∀ i : Instr, decode t.cfg.haltDecode (readReg s rs2) = .ok i → step t = recordInfo (readReg s rs2) (exec i t)

/-- Only `sw` writes memory, and only the four bytes at its EA (10_state.md R40, 20_memory.md R57): a byte that a step changes. -/
def Obligations.OnlyStoreWritesMemory : Prop :=
  ∀ (s t : State) (a : Nat), step s = .next t → t.mem.readByte a ≠ s.mem.readByte a →
    ∃ rs2 rs1 imm, decode s.cfg.haltDecode (fetch s) = .ok (.sw rs2 rs1 imm) ∧
      (effectiveAddress s rs1 imm).toNat ≤ a ∧ a < (effectiveAddress s rs1 imm).toNat + 4

/-! ### The step -/

/-- 40_sequencer.md R119, R121 to R123: where the guard passes and the word at the pc decodes to an instruction, the step is that
instruction's execution, and the info update around it unless it faulted. -/
def Obligations.StepRunsDecodedInstruction : Prop :=
  ∀ (s : State) (i : Instr), s.running = true → decode s.cfg.haltDecode (fetch s) = .ok i →
    fetch s = (s.mem.readByte (s.pc.toNat + 3) ++ s.mem.readByte (s.pc.toNat + 2) ++ s.mem.readByte (s.pc.toNat + 1)
      ++ s.mem.readByte s.pc.toNat : BitVec (8 + 8 + 8 + 8)) ∧
    ∀ t, exec i s = .next t →
      step s = .next (if t.fault = none then { t with info := infoOf t.cfg.haltDecode (fetch s) } else t)

/-- 40_sequencer.md R129, R130: an unrecognized word changes no register, memory byte or halt flag, advances the pc by 4, returns
true, and leaves `unrecognized` 1, no mnemonic, and format NONE or, for a known opcode, the opcode's format. -/
def Obligations.UnrecognizedWordIsNoOp : Prop :=
  ∀ (s : State) (e : DecodeError), s.running = true → decode s.cfg.haltDecode (fetch s) = .error e →
    ∃ t, stepResult s = (t, true) ∧ RegsSame s t ∧ MemSame s t ∧ t.halt = s.halt ∧ t.fault = s.fault ∧ t.cfg = s.cfg ∧
      t.pc = s.pc + 4 ∧ t.info.unrecognized = true ∧ t.info.mnemonic = none ∧ t.info.format = formatOf (fetch s) ∧
      (e = .unknownOpcode ↔ t.info.format = .NONE)

/-- 40_sequencer.md R120: with halt = 1, a fault, or a pc beyond MEM_SIZE − 4 the step returns false and changes nothing, however
often it is called. -/
def Obligations.GuardedStepChangesNothing : Prop :=
  ∀ s : State, s.cfg.Valid → (s.halt = true ∨ s.pc.toNat > s.cfg.memSize - 4 ∨ s.fault ≠ none) →
    step s = .next s ∧ stepResult s = (s, false) ∧ ∀ n : Nat, run (n + 1) s = (s, true)

/-- 40_sequencer.md R127: a step returns true exactly when it passes the guard (`halt = 0`, `u(pc) ≤ MEM_SIZE − 4`, no fault) and
raises no fault. -/
def Obligations.StepProgressesUnlessGuardedOrFaulted : Prop :=
  ∀ s : State, s.cfg.Valid →
    ((stepResult s).2 = true ↔
      s.halt = false ∧ s.pc.toNat ≤ s.cfg.memSize - 4 ∧ s.fault = none ∧ (stepResult s).1.fault = none)

/-- 40_sequencer.md R134: a step that raises a fault sets `fault` and changes nothing else, and returns false. -/
def Obligations.FaultingStepChangesOnlyFault : Prop :=
  ∀ (s t : State) (k : Fault), s.fault = none → step s = .next t → t.fault = some k →
    t = { s with fault := some k } ∧ stepResult s = ({ s with fault := some k }, false)

/-- 60_exceptions.md R176: which instruction raises which kind, when, and what it records; and an exec that raises none leaves
`fault` alone. -/
def Obligations.FaultKindsByRaiser : Prop :=
  ∀ (i : Instr) (s t : State), s.cfg.Valid → s.fault = none → exec i s = .next t →
    (∀ ea, t.fault = some (.memOutOfRange ea) →
      ea.toNat > s.cfg.memSize - 4 ∧ t = { s with fault := some (.memOutOfRange ea) } ∧
      ((∃ rd rs1 imm, i = .lw rd rs1 imm ∧ ea = effectiveAddress s rs1 imm) ∨
       (∃ rs2 rs1 imm, i = .sw rs2 rs1 imm ∧ ea = effectiveAddress s rs1 imm))) ∧
    (t.fault = some .shiftOutOfRange →
      s.cfg.shiftGe32 = .fault ∧ t = { s with fault := some .shiftOutOfRange } ∧
      ∃ rd rs1 rs2, (i = .sll rd rs1 rs2 ∨ i = .srl rd rs1 rs2 ∨ i = .sra rd rs1 rs2) ∧ 32 ≤ (readReg s rs2).toNat)

/-- 40_sequencer.md R126: the sequencer's next pc, case by case. -/
def Obligations.SequencerNextPc : Prop :=
  ∀ s t : State, step s = .next t →
    (s.running = false → t.pc = s.pc) ∧
    (s.running = true → t.fault ≠ none → t.pc = s.pc) ∧
    (s.running = true → t.fault = none →
      (∀ i, decode s.cfg.haltDecode (fetch s) = .ok i → t.pc = nextPcOf s i) ∧
      (∀ e, decode s.cfg.haltDecode (fetch s) = .error e → t.pc = s.pc + 4))

/-- 10_state.md R28: a step writes at most one register, the `rd` of a register-writing instruction; the store, the branches, the
halt and an unrecognized word write none. -/
def Obligations.AtMostOneRegisterWritten : Prop :=
  ∀ s t : State, step s = .next t →
    (∀ r : RegId, r ≠ rdOf (fetch s) → readReg t r = readReg s r) ∧
    (∀ i, decode s.cfg.haltDecode (fetch s) = .ok i → i.mnemonic ∈ [Mnemonic.sw, .beq, .bne, .blt, .bge, .ebreak] → RegsSame s t) ∧
    (∀ e, decode s.cfg.haltDecode (fetch s) = .error e → RegsSame s t)

/-- 40_sequencer.md R128: a progressing step replaces `info` with the record of this word; one that fails the guard or faults leaves
it as it was. -/
def Obligations.InfoRecomputedOnProgress : Prop :=
  ∀ (s t : State) (b : Bool), stepResult s = (t, b) →
    (b = true → t.info = infoOf s.cfg.haltDecode (fetch s)) ∧ (b = false → t.info = s.info)

/-- 10_state.md R37: no instruction reads `info`: two states that differ in it alone step to states that differ in it at most, and
progress alike. -/
def Obligations.InfoIsNeverRead : Prop :=
  ∀ (s : State) (j : Info),
    (stepResult { s with info := j }).2 = (stepResult s).2 ∧
    { (stepResult { s with info := j }).1 with info := s.info } = { (stepResult s).1 with info := s.info }

/-- The model's totality (derived from 30_encoding.md R97, R98 and 60_exceptions.md R176): every instruction and every step, on every
state, answers a next state; none ends in a fault or a refusal of the interface. -/
def Obligations.EveryStepAnswersNext : Prop :=
  (∀ (i : Instr) (s : State), ∃ t, exec i s = .next t) ∧ (∀ s : State, ∃ t, step s = .next t)

/-- 40_sequencer.md R132: the three run states. -/
def Obligations.RunStatesPartition : Prop :=
  ∀ s : State, s.cfg.Valid →
    (runState s = .running ↔ s.halt = false ∧ s.pc.toNat ≤ s.cfg.memSize - 4 ∧ s.fault = none) ∧
    (runState s = .halted ↔ (s.halt = true ∨ s.pc.toNat > s.cfg.memSize - 4) ∧ s.fault = none) ∧
    (runState s = .faulted ↔ s.fault ≠ none)

/-! ### Whole-machine rules over every host call -/

/-- 10_state.md R33: `ebreak` sets halt, and only reset clears it; `load_program` leaves it; while it is 1, a step does nothing and
returns false. -/
def Obligations.HaltSetByEbreakClearedByReset : Prop :=
  ∀ (c : HostCall) (s t : State), hostCall c s = .next t →
    (s.halt = false → t.halt = true → c = .step ∧ decode s.cfg.haltDecode (fetch s) = .ok .ebreak) ∧
    (s.halt = true → t.halt = false → c = .reset) ∧
    (c = .step → s.running = true → decode s.cfg.haltDecode (fetch s) = .ok .ebreak → t.halt = true) ∧
    (∀ bytes, c = .loadProgram bytes → t.halt = s.halt) ∧
    (s.halt = true → stepResult s = (s, false))

/-- 60_exceptions.md R177: the faulted state is terminal: steps do nothing and return false; of the host calls only reset clears
`fault`; the state counts as Faulted, never as halted. -/
def Obligations.FaultIsTerminalUntilReset : Prop :=
  ∀ (c : HostCall) (s t : State), hostCall c s = .next t → s.fault ≠ none →
    (c ≠ .reset → t.fault = s.fault) ∧ (c = .reset → t.fault = none) ∧
    stepResult s = (s, false) ∧ runState s = .faulted ∧ endedByFault s = true ∧ endedByHalt s = false ∧ endedOffMemory s = false

/-- The model's choice (notes/assumptions/1.md): the configuration is a parameter that no host call, and so no instruction, changes. -/
def Obligations.ConfigurationNeverChanges : Prop :=
  ∀ (c : HostCall) (s t : State), hostCall c s = .next t → t.cfg = s.cfg

/-! ### Reset, loading, runs -/

/-- 70_reset_and_hazards.md R187: the zeroed state, field by field, after the host's reset from any state and in `State.reset`; and
it is Running. -/
def Obligations.ResetLeavesZeroedState : Prop :=
  ∀ s t : State, (t = hostReset s ∨ t = State.reset) →
    (∀ r : RegId, readReg t r = 0) ∧ t.pc = 0 ∧ t.halt = false ∧ (∀ a : Nat, t.mem.readByte a = 0) ∧
    t.info = ⟨.NONE, none, 0, 0, 0, 0, false⟩ ∧ t.fault = none ∧ (t.cfg.Valid → runState t = .running)

/-- 70_reset_and_hazards.md R189: the bytes of the image from LOAD_BASE on, the pc at LOAD_BASE, everything else unchanged; from the
zeroed state the result is Running. -/
def Obligations.LoadProgramEffect : Prop :=
  (∀ (s : State) (bytes : List Byte), s.cfg.loadBase.toNat + bytes.length ≤ s.cfg.memSize →
    ∃ t, loadProgram s bytes = .next t ∧
      (∀ (k : Nat) (hk : k < bytes.length), t.mem.readByte (s.cfg.loadBase.toNat + k) = bytes[k]) ∧
      (∀ a : Nat, (a < s.cfg.loadBase.toNat ∨ s.cfg.loadBase.toNat + bytes.length ≤ a) →
        t.mem.readByte a = s.mem.readByte a) ∧
      t.pc = s.cfg.loadBase ∧ RegsSame s t ∧ t.halt = s.halt ∧ RestSame s t) ∧
  (∀ (s t : State) (bytes : List Byte), s.cfg.Valid → loadProgram (hostReset s) bytes = .next t → runState t = .running)

/-- 70_reset_and_hazards.md R190: an image that does not fit has no transition. -/
def Obligations.OversizeImageIsRefused : Prop :=
  ∀ (s : State) (bytes : List Byte), s.cfg.memSize < s.cfg.loadBase.toNat + bytes.length ↔
    loadProgram s bytes = .refused .imageTooLarge

/-- 30_encoding.md R104, R118 with 70_reset_and_hazards.md R189: word `j` of a loaded program is what a fetch at LOAD_BASE + 4j reads. -/
def Obligations.LoadedWordsAreFetched : Prop :=
  ∀ (s t : State) (ws : List Word), loadProgram s (programImage ws) = .next t →
    ∀ (j : Nat) (hj : j < ws.length), t.mem.readWord (s.cfg.loadBase.toNat + 4 * j) = ws[j]

/-- 70_reset_and_hazards.md R192: from the zeroed state, before any program, steps walk the zeroed memory as no-ops: after `k` of
them, while they fit in the memory, the pc is `4k`, every step progressed, and registers and memory are still zero. -/
def Obligations.BootWalksZeroMemory : Prop :=
  ∀ (c : Config) (k : Nat), c.Valid → 4 * k ≤ c.memSize →
    ∃ t, core.run k (State.resetWith c) = .next t ∧ run k (State.resetWith c) = (t, false) ∧
      t.pc = BitVec.ofNat 32 (4 * k) ∧ (∀ r : RegId, readReg t r = 0) ∧ t.mem = [] ∧ t.halt = false ∧ t.fault = none

/-- 70_reset_and_hazards.md R202: a run that has ended is in one of the three states: halt = 1, a pc out of range, or a fault. -/
def Obligations.RunEndsInOneOfThreeStates : Prop :=
  ∀ (n : Nat) (s t : State), s.cfg.Valid → run n s = (t, true) →
    (t.halt = true ∨ t.pc.toNat > t.cfg.memSize - 4 ∨ t.fault ≠ none) ∧ stepResult t = (t, false)

/-- 43_branch.md R157 with 40_sequencer.md R131: a branch to itself (offset 0) whose condition holds, of any of the four instructions
(R158 to R161, both orders unsigned), never ends the run, whatever the fuel. -/
def Obligations.SelfBranchNeverEnds : Prop :=
  ∀ (n : Nat) (rs1 rs2 : RegId) (s : State), s.running = true →
    ((decode s.cfg.haltDecode (fetch s) = .ok (.beq rs1 rs2 0) ∧ readReg s rs1 = readReg s rs2) ∨
     (decode s.cfg.haltDecode (fetch s) = .ok (.bne rs1 rs2 0) ∧ readReg s rs1 ≠ readReg s rs2) ∨
     (decode s.cfg.haltDecode (fetch s) = .ok (.blt rs1 rs2 0) ∧ (readReg s rs1).toNat < (readReg s rs2).toNat) ∨
     (decode s.cfg.haltDecode (fetch s) = .ok (.bge rs1 rs2 0) ∧ (readReg s rs2).toNat ≤ (readReg s rs1).toNat)) →
    (run n s).2 = false ∧ (run n s).1.pc = s.pc

/-- 70_reset_and_hazards.md R195: the view calls return the 32 registers, all MEM_SIZE bytes, the pc and the info. -/
def Obligations.ViewCallsShowState : Prop :=
  ∀ s : State,
    (viewRegisters s).length = 32 ∧ (∀ r : RegId, (viewRegisters s)[r.toNat]? = some (readReg s r)) ∧
    (viewMemory s).length = s.cfg.memSize ∧
    (∀ a : Nat, a < s.cfg.memSize → (viewMemory s)[a]? = some (s.mem.readByte a)) ∧
    getPc s = s.pc ∧ viewInstrInfo s = s.info

/-! ### Invariant and refinement -/

/-- The invariant holds in the zeroed state of every legal configuration, and in `State.reset`. -/
def Obligations.InvariantHoldsAtReset : Prop :=
  (∀ c : Config, c.Valid → (State.resetWith c).Inv) ∧ State.reset.Inv

/-- Every step keeps the invariant: the configuration stays legal, the memory canonical and inside the array, the pc a multiple of 4
(10_state.md R32, R36). -/
def Obligations.StepKeepsInvariant : Prop :=
  ∀ s t : State, s.Inv → step s = .next t → t.Inv

/-- Reset and a load of any image keep the invariant. -/
def Obligations.ResetAndLoadKeepInvariant : Prop :=
  ∀ s t : State, s.Inv → (hostReset s).Inv ∧ ∀ bytes : List Byte, loadProgram s bytes = .next t → t.Inv

/-- 10_state.md R41 to R46: the five sub-blocks wired by their ports do, on every state, what `step` does, and answer the same
Boolean. The model's choices in the wiring (notes/assumptions/22.md): the names of the control signals, the sequencer's extra input
`raised`, and the absent ALU output on a shift fault. -/
def Obligations.DatapathRefinesStep : Prop :=
  ∀ s : State, datapathStep s = stepResult s

/-- The host's way to place one word: the next fetch reads it. -/
def Obligations.PlacedWordIsFetched : Prop :=
  ∀ (s : State) (nbits w : Nat), s.running = true →
    (s.withFetchWord nbits w).running = true ∧ fetch (s.withFetchWord nbits w) = BitVec.ofNat 32 (w % 2 ^ nbits) ∧
    RegsSame s (s.withFetchWord nbits w) ∧ (s.withFetchWord nbits w).pc = s.pc ∧ RestSame s (s.withFetchWord nbits w)

/-! ### The assembler -/

/-- Every word the assembler emits is the word of a well-formed instruction, and so decodes alike under every HALT_DECODE (the
canonical-image premise of 92_eei_decisions.md). -/
def Obligations.AssembledWordsAreInstructions : Prop :=
  ∀ (src : Source) (ws : List Word), assemble src = .ok ws → ∀ w ∈ ws,
    ∃ i : Instr, i.wf = true ∧ encode i = w ∧ ∀ h : HaltDecode, decode h w = .ok i

/-- 30_encoding.md R116: `ebreak` emits 0x00100073 and ends assembly, whatever its operand text and the lines after it are; so the
halt word is only ever the last word. -/
def Obligations.EbreakEndsAssembly : Prop :=
  (∀ (labels : List (Text × Nat)) (j : Nat) (l : Text) (ls : List Text), mnemonicToken l = "ebreak".toList →
    assembleLines labels j (l :: ls) = .ok [0x00100073]) ∧
  (∀ (src : Source) (ws : List Word) (k : Nat), assemble src = .ok ws → ws[k]? = some 0x00100073 → k + 1 = ws.length)

/-- 30_encoding.md R115: the range checks of immediates: accepted exactly in range, with the value kept. -/
def Obligations.ImmediateRangeChecks : Prop :=
  ∀ v : Int,
    ((∃ imm, checkImm12 v = .ok imm ∧ imm.toInt = v) ↔ -2048 ≤ v ∧ v ≤ 2047) ∧
    ((∃ off, checkOffset v = .ok off ∧ off.toInt = v) ↔ -4096 ≤ v ∧ v ≤ 4094 ∧ v % 2 = 0) ∧
    (¬ (-2048 ≤ v ∧ v ≤ 2047) → checkImm12 v = .error .immediateOutOfRange) ∧
    (¬ (-4096 ≤ v ∧ v ≤ 4094 ∧ v % 2 = 0) → checkOffset v = .error .immediateOutOfRange)

/-- 30_encoding.md R114: a branch on line `j` to a label of index `k`, taken at the address of line `j`, lands at the address of
line `k`. -/
def Obligations.LabelBranchLandsOnLabel : Prop :=
  ∀ (labels : List (Text × Nat)) (name : Text) (j k : Nat) (v : Int) (off : BitVec 13) (base : Word),
    lookupLabel labels name = some k → parseImmediate labels j name = .ok v → checkOffset v = .ok off →
    v = ((k : Int) - (j : Int)) * 4 ∧ offsetAligned off = true ∧
    (base + BitVec.ofNat 32 (4 * j)) + branchOffset off = base + BitVec.ofNat 32 (4 * k)
end

