-- ==== Sys2Proof/Laws/Encoding.lean ====
section
/-! SUPPORT. The decoder's fields of the words the encoders pack (30_encoding.md R78 to R89): one lemma per field and format. -/

namespace Sys2Proof

/-- Bit `k` of the S field in the word (R74). -/
theorem getLsbD_immSField (w : Word) (k : Nat) :
    (immSField w).getLsbD k = if k < 5 then w.getLsbD (k + 7) else decide (k < 12) && w.getLsbD (k + 20) := by
  show (w.extractLsb' 25 7 ++ w.extractLsb' 7 5 : BitVec (7 + 5)).getLsbD k = _
  rw [BitVec.getLsbD_append]
  by_cases h : k < 5
  · simp [h, Nat.add_comm]
  · obtain ⟨j, rfl⟩ : ∃ j, k = j + 5 := ⟨k - 5, by omega⟩
    have e : (j + 5 < 12) = (j < 7) := by simp only [eq_iff_iff]; omega
    simp [e, Nat.add_comm]

/-- Bit `k` of the B field in the word (R75). -/
theorem getLsbD_immBField (w : Word) (k : Nat) :
    (immBField w).getLsbD k =
      if k = 0 then false
      else if k < 5 then w.getLsbD (k + 7)
      else if k < 11 then w.getLsbD (k + 20)
      else if k = 11 then w.getLsbD 7
      else decide (k = 12) && w.getLsbD 31 := by
  show (w.extractLsb' 31 1 ++ w.extractLsb' 7 1 ++ w.extractLsb' 25 6 ++ w.extractLsb' 8 4 ++ 0#1 :
    BitVec (1 + 1 + 6 + 4 + 1)).getLsbD k = _
  rw [BitVec.getLsbD_append, BitVec.getLsbD_append, BitVec.getLsbD_append, BitVec.getLsbD_append]
  by_cases hk : k < 13
  · interval_cases k <;> simp
  · have h1 : ¬ k < 1 := by omega
    have h2 : ¬ k - 1 < 4 := by omega
    have h3 : ¬ k - 1 - 4 < 6 := by omega
    have h4 : ¬ k - 1 - 4 - 6 < 1 := by omega
    have h5 : ¬ k - 1 - 4 - 6 - 1 < 1 := by omega
    have h6 : ¬ k = 0 := by omega
    have h7 : ¬ k < 5 := by omega
    have h8 : ¬ k < 11 := by omega
    have h9 : ¬ k = 11 := by omega
    have h10 : ¬ k = 12 := by omega
    simp only [h1, h2, h3, h4, h6, h7, h8, h9, h10, if_false, decide_false, Bool.false_and, BitVec.getLsbD_extractLsb', h5]

section
variable (op rd f3 rs1 rs2 f7 : Word)

@[simp] theorem opcodeOf_encodeR : opcodeOf (encodeR op rd f3 rs1 rs2 f7) = op.setWidth 7 := by
  apply BitVec.eq_of_getLsbD_eq
  intro i hi
  interval_cases i <;> simp [encodeR, opcodeOf]

@[simp] theorem rdOf_encodeR : rdOf (encodeR op rd f3 rs1 rs2 f7) = rd.setWidth 5 := by
  apply BitVec.eq_of_getLsbD_eq
  intro i hi
  interval_cases i <;> simp [encodeR, rdOf]

@[simp] theorem funct3Of_encodeR : funct3Of (encodeR op rd f3 rs1 rs2 f7) = f3.setWidth 3 := by
  apply BitVec.eq_of_getLsbD_eq
  intro i hi
  interval_cases i <;> simp [encodeR, funct3Of]

@[simp] theorem rs1Of_encodeR : rs1Of (encodeR op rd f3 rs1 rs2 f7) = rs1.setWidth 5 := by
  apply BitVec.eq_of_getLsbD_eq
  intro i hi
  interval_cases i <;> simp [encodeR, rs1Of]

@[simp] theorem rs2Of_encodeR : rs2Of (encodeR op rd f3 rs1 rs2 f7) = rs2.setWidth 5 := by
  apply BitVec.eq_of_getLsbD_eq
  intro i hi
  interval_cases i <;> simp [encodeR, rs2Of]

@[simp] theorem funct7Of_encodeR : funct7Of (encodeR op rd f3 rs1 rs2 f7) = f7.setWidth 7 := by
  apply BitVec.eq_of_getLsbD_eq
  intro i hi
  interval_cases i <;> simp [encodeR, funct7Of]

end

section
variable (op rd f3 rs1 imm : Word)

@[simp] theorem opcodeOf_encodeI : opcodeOf (encodeI op rd f3 rs1 imm) = op.setWidth 7 := by
  apply BitVec.eq_of_getLsbD_eq
  intro i hi
  interval_cases i <;> simp [encodeI, opcodeOf]

@[simp] theorem rdOf_encodeI : rdOf (encodeI op rd f3 rs1 imm) = rd.setWidth 5 := by
  apply BitVec.eq_of_getLsbD_eq
  intro i hi
  interval_cases i <;> simp [encodeI, rdOf]

@[simp] theorem funct3Of_encodeI : funct3Of (encodeI op rd f3 rs1 imm) = f3.setWidth 3 := by
  apply BitVec.eq_of_getLsbD_eq
  intro i hi
  interval_cases i <;> simp [encodeI, funct3Of]

@[simp] theorem rs1Of_encodeI : rs1Of (encodeI op rd f3 rs1 imm) = rs1.setWidth 5 := by
  apply BitVec.eq_of_getLsbD_eq
  intro i hi
  interval_cases i <;> simp [encodeI, rs1Of]

@[simp] theorem immIField_encodeI : immIField (encodeI op rd f3 rs1 imm) = imm.setWidth 12 := by
  apply BitVec.eq_of_getLsbD_eq
  intro i hi
  interval_cases i <;> simp [encodeI, immIField]

end

section
variable (op f3 rs1 rs2 imm : Word)

@[simp] theorem opcodeOf_encodeS : opcodeOf (encodeS op f3 rs1 rs2 imm) = op.setWidth 7 := by
  apply BitVec.eq_of_getLsbD_eq
  intro i hi
  interval_cases i <;> simp [encodeS, opcodeOf]

@[simp] theorem funct3Of_encodeS : funct3Of (encodeS op f3 rs1 rs2 imm) = f3.setWidth 3 := by
  apply BitVec.eq_of_getLsbD_eq
  intro i hi
  interval_cases i <;> simp [encodeS, funct3Of]

@[simp] theorem rs1Of_encodeS : rs1Of (encodeS op f3 rs1 rs2 imm) = rs1.setWidth 5 := by
  apply BitVec.eq_of_getLsbD_eq
  intro i hi
  interval_cases i <;> simp [encodeS, rs1Of]

@[simp] theorem rs2Of_encodeS : rs2Of (encodeS op f3 rs1 rs2 imm) = rs2.setWidth 5 := by
  apply BitVec.eq_of_getLsbD_eq
  intro i hi
  interval_cases i <;> simp [encodeS, rs2Of]

@[simp] theorem immSField_encodeS : immSField (encodeS op f3 rs1 rs2 imm) = imm.setWidth 12 := by
  apply BitVec.eq_of_getLsbD_eq
  intro i hi
  rw [getLsbD_immSField]
  interval_cases i <;> simp [encodeS]

end

section
variable (op f3 rs1 rs2 off : Word)

@[simp] theorem opcodeOf_encodeB : opcodeOf (encodeB op f3 rs1 rs2 off) = op.setWidth 7 := by
  apply BitVec.eq_of_getLsbD_eq
  intro i hi
  interval_cases i <;> simp [encodeB, opcodeOf]

@[simp] theorem funct3Of_encodeB : funct3Of (encodeB op f3 rs1 rs2 off) = f3.setWidth 3 := by
  apply BitVec.eq_of_getLsbD_eq
  intro i hi
  interval_cases i <;> simp [encodeB, funct3Of]

@[simp] theorem rs1Of_encodeB : rs1Of (encodeB op f3 rs1 rs2 off) = rs1.setWidth 5 := by
  apply BitVec.eq_of_getLsbD_eq
  intro i hi
  interval_cases i <;> simp [encodeB, rs1Of]

@[simp] theorem rs2Of_encodeB : rs2Of (encodeB op f3 rs1 rs2 off) = rs2.setWidth 5 := by
  apply BitVec.eq_of_getLsbD_eq
  intro i hi
  interval_cases i <;> simp [encodeB, rs2Of]

/-- Bit 0 of the offset is dropped (R89, R90). -/
@[simp] theorem immBField_encodeB : immBField (encodeB op f3 rs1 rs2 off) = off.setWidth 13 &&& 8190#13 := by
  apply BitVec.eq_of_getLsbD_eq
  intro i hi
  rw [getLsbD_immBField]
  interval_cases i <;> simp [encodeB]

end

/-- A field is kept by its sign extension. -/
theorem setWidth_sext32 {n : Nat} (hn : n ≤ 32) (f : BitVec n) : (sext32 f).setWidth n = f := by
  apply BitVec.eq_of_getLsbD_eq
  intro i hi
  have h32 : i < 32 := by omega
  simp [sext32, BitVec.getElem_signExtend, hi, h32]

/-- The B fields of any word hold an even offset (R85). -/
theorem offsetEven_immBField (w : Word) : offsetEven (immBField w) = true := by
  simp only [offsetEven, getLsbD_immBField]
  rfl

/-- An even offset is kept by the B format. -/
theorem even_offset_kept {off : BitVec 13} (h : offsetEven off = true) : off &&& 8190#13 = off := by
  apply BitVec.eq_of_getLsbD_eq
  intro i hi
  have h0 : off.getLsbD 0 = false := by simpa [offsetEven] using h
  interval_cases i <;> simp_all

end Sys2Proof
end

