-- ==== Sys2Proof/Laws/State.lean ====
section
/-! SUPPORT. The fields of the state under each named update, and register reads under each. -/

namespace Sys2Proof.Machine

variable (s : State) (i r : RegId) (v w : Word) (k : Fault)

@[simp] theorem writeReg_pc : (writeReg s i v).pc = s.pc := rfl
@[simp] theorem writeReg_halt : (writeReg s i v).halt = s.halt := rfl
@[simp] theorem writeReg_mem : (writeReg s i v).mem = s.mem := rfl
@[simp] theorem writeReg_info : (writeReg s i v).info = s.info := rfl
@[simp] theorem writeReg_fault : (writeReg s i v).fault = s.fault := rfl
@[simp] theorem writeReg_cfg : (writeReg s i v).cfg = s.cfg := rfl
@[simp] theorem writeReg_x : (writeReg s i v).x = s.x.set i.toNat v := rfl

@[simp] theorem advancePc_x : (advancePc s).x = s.x := rfl
@[simp] theorem advancePc_pc : (advancePc s).pc = s.pc + 4 := rfl
@[simp] theorem advancePc_halt : (advancePc s).halt = s.halt := rfl
@[simp] theorem advancePc_mem : (advancePc s).mem = s.mem := rfl
@[simp] theorem advancePc_info : (advancePc s).info = s.info := rfl
@[simp] theorem advancePc_fault : (advancePc s).fault = s.fault := rfl
@[simp] theorem advancePc_cfg : (advancePc s).cfg = s.cfg := rfl

@[simp] theorem redirect_x : (redirect s v).x = s.x := rfl
@[simp] theorem redirect_pc : (redirect s v).pc = s.pc + v - 4 := rfl
@[simp] theorem redirect_halt : (redirect s v).halt = s.halt := rfl
@[simp] theorem redirect_mem : (redirect s v).mem = s.mem := rfl
@[simp] theorem redirect_info : (redirect s v).info = s.info := rfl
@[simp] theorem redirect_fault : (redirect s v).fault = s.fault := rfl
@[simp] theorem redirect_cfg : (redirect s v).cfg = s.cfg := rfl

@[simp] theorem setHalt_x : (setHalt s).x = s.x := rfl
@[simp] theorem setHalt_pc : (setHalt s).pc = s.pc := rfl
@[simp] theorem setHalt_halt : (setHalt s).halt = true := rfl
@[simp] theorem setHalt_mem : (setHalt s).mem = s.mem := rfl
@[simp] theorem setHalt_info : (setHalt s).info = s.info := rfl
@[simp] theorem setHalt_fault : (setHalt s).fault = s.fault := rfl
@[simp] theorem setHalt_cfg : (setHalt s).cfg = s.cfg := rfl

@[simp] theorem raiseFault_x : (raiseFault s k).x = s.x := rfl
@[simp] theorem raiseFault_pc : (raiseFault s k).pc = s.pc := rfl
@[simp] theorem raiseFault_halt : (raiseFault s k).halt = s.halt := rfl
@[simp] theorem raiseFault_mem : (raiseFault s k).mem = s.mem := rfl
@[simp] theorem raiseFault_info : (raiseFault s k).info = s.info := rfl
@[simp] theorem raiseFault_fault : (raiseFault s k).fault = some k := rfl
@[simp] theorem raiseFault_cfg : (raiseFault s k).cfg = s.cfg := rfl

@[simp] theorem setInfo_x : (setInfo s w).x = s.x := rfl
@[simp] theorem setInfo_pc : (setInfo s w).pc = s.pc := rfl
@[simp] theorem setInfo_halt : (setInfo s w).halt = s.halt := rfl
@[simp] theorem setInfo_mem : (setInfo s w).mem = s.mem := rfl
@[simp] theorem setInfo_info : (setInfo s w).info = infoOf s.cfg.haltDecode w := rfl
@[simp] theorem setInfo_fault : (setInfo s w).fault = s.fault := rfl
@[simp] theorem setInfo_cfg : (setInfo s w).cfg = s.cfg := rfl

@[simp] theorem hostReset_pc : (hostReset s).pc = 0 := rfl
@[simp] theorem hostReset_halt : (hostReset s).halt = false := rfl
@[simp] theorem hostReset_mem : (hostReset s).mem = [] := rfl
@[simp] theorem hostReset_info : (hostReset s).info = Info.cleared := rfl
@[simp] theorem hostReset_fault : (hostReset s).fault = none := rfl
@[simp] theorem hostReset_cfg : (hostReset s).cfg = s.cfg := rfl

/-- Register reads follow the register file alone. -/
theorem readReg_congr {s t : State} (h : t.x = s.x) (r : RegId) : readReg t r = readReg s r := by
  simp [readReg, h]

@[simp] theorem readReg_advancePc : readReg (advancePc s) r = readReg s r := rfl
@[simp] theorem readReg_redirect : readReg (redirect s v) r = readReg s r := rfl
@[simp] theorem readReg_setHalt : readReg (setHalt s) r = readReg s r := rfl
@[simp] theorem readReg_raiseFault : readReg (raiseFault s k) r = readReg s r := rfl
@[simp] theorem readReg_setInfo : readReg (setInfo s w) r = readReg s r := rfl

/-- A register read after a write: the written register holds the value, `x[0]` included, the others are as they were. -/
theorem readReg_writeReg : readReg (writeReg s i v) r = if r = i then v else readReg s r := by
  by_cases h : r = i
  · subst h; simp [readReg]
  · have hn : i.toNat ≠ r.toNat := fun e => h (BitVec.eq_of_toNat_eq e.symm)
    simp [readReg, h, Vector.getElem_set_ne, hn]

@[simp] theorem readReg_writeReg_same : readReg (writeReg s i v) i = v := by simp [readReg_writeReg]

theorem readReg_writeReg_ne (h : r ≠ i) : readReg (writeReg s i v) r = readReg s r := by simp [readReg_writeReg, h]

end Sys2Proof.Machine
end

