-- ==== Sys2Proof/Laws/Memory.lean ====
section
/-! SUPPORT. Memory: what a byte reads as after each operation, and that every operation keeps the canonical form. -/

namespace Sys2Proof.Machine

@[simp] theorem readByte_nil (a : Nat) : Memory.readByte [] a = 0 := rfl

theorem readByte_cons (c : Host.Cell) (m : Memory) (a : Nat) :
    Memory.readByte (c :: m) a = if c.1 = a then c.2 else Memory.readByte m a := rfl

/-- An address that no entry holds reads as 0. -/
theorem readByte_of_not_mem {m : Memory} {a : Nat} (h : ∀ c ∈ m, c.1 ≠ a) : m.readByte a = 0 := by
  induction m with
  | nil => rfl
  | cons c m ih =>
    have hc : c.1 ≠ a := h c (by simp)
    rw [readByte_cons, if_neg hc]
    exact ih fun d hd => h d (by simp [hd])

theorem readByte_erase (m : Memory) (a b : Nat) :
    (m.erase a).readByte b = if b = a then 0 else m.readByte b := by
  induction m with
  | nil => simp [Memory.erase]
  | cons c m ih =>
    by_cases hc : c.1 = a
    · rw [show Memory.erase (c :: m) a = Memory.erase m a by simp [Memory.erase, hc], ih, readByte_cons]
      by_cases hb : b = a
      · simp [hb]
      · have : c.1 ≠ b := by omega
        simp [hb, this]
    · rw [show Memory.erase (c :: m) a = c :: Memory.erase m a by simp [Memory.erase, hc], readByte_cons, readByte_cons, ih]
      by_cases hcb : c.1 = b
      · have : b ≠ a := by omega
        simp [hcb, this]
      · simp [hcb]

theorem readByte_insert (m : Memory) (a b : Nat) (v : Byte) (h : ∀ c ∈ m, c.1 ≠ a) :
    (m.insert a v).readByte b = if b = a then v else m.readByte b := by
  induction m with
  | nil => simp [Memory.insert, readByte_cons, eq_comm]
  | cons c m ih =>
    have hc : c.1 ≠ a := h c (by simp)
    by_cases hlt : a < c.1
    · rw [show Memory.insert (c :: m) a v = (a, v) :: c :: m by simp [Memory.insert, hlt], readByte_cons]
      simp [eq_comm]
    · rw [show Memory.insert (c :: m) a v = c :: Memory.insert m a v by simp [Memory.insert, hlt], readByte_cons,
        ih fun d hd => h d (by simp [hd]), readByte_cons]
      by_cases hcb : c.1 = b
      · have : b ≠ a := by omega
        simp [hcb, this]
      · simp [hcb]

theorem mem_erase {m : Memory} {a : Nat} {c : Host.Cell} : c ∈ m.erase a ↔ c ∈ m ∧ c.1 ≠ a := by
  induction m with
  | nil => simp [Memory.erase]
  | cons d m ih =>
    by_cases hd : d.1 = a
    · rw [show Memory.erase (d :: m) a = Memory.erase m a by simp [Memory.erase, hd], ih]
      constructor
      · exact fun ⟨h, hn⟩ => ⟨by simp [h], hn⟩
      · rintro ⟨h, hn⟩
        rcases List.mem_cons.mp h with rfl | h
        · exact absurd hd hn
        · exact ⟨h, hn⟩
    · rw [show Memory.erase (d :: m) a = d :: Memory.erase m a by simp [Memory.erase, hd], List.mem_cons, ih, List.mem_cons]
      constructor
      · rintro (rfl | ⟨h, hn⟩)
        · exact ⟨.inl rfl, hd⟩
        · exact ⟨.inr h, hn⟩
      · rintro ⟨rfl | h, hn⟩
        · exact .inl rfl
        · exact .inr ⟨h, hn⟩

theorem mem_insert {m : Memory} {a : Nat} {v : Byte} {c : Host.Cell} : c ∈ m.insert a v ↔ c = (a, v) ∨ c ∈ m := by
  induction m with
  | nil => simp [Memory.insert]
  | cons d m ih =>
    by_cases hlt : a < d.1
    · rw [show Memory.insert (d :: m) a v = (a, v) :: d :: m by simp [Memory.insert, hlt]]
      simp
    · rw [show Memory.insert (d :: m) a v = d :: Memory.insert m a v by simp [Memory.insert, hlt], List.mem_cons, ih,
        List.mem_cons]
      tauto

/-- A byte read after a byte write, in any memory, canonical or not. -/
theorem readByte_writeByte (m : Memory) (a b : Nat) (v : Byte) :
    (m.writeByte a v).readByte b = if b = a then v else m.readByte b := by
  unfold Memory.writeByte
  split
  · rename_i hv
    rw [readByte_erase, hv]
  · rw [readByte_insert _ _ _ _ fun c hc => (mem_erase.mp hc).2, readByte_erase]
    by_cases hb : b = a <;> simp [hb]

/-- A byte read after a word write: one of its four bytes, or the byte that was there. -/
theorem readByte_writeWord (m : Memory) (a b : Nat) (v : Word) :
    (m.writeWord a v).readByte b = if a ≤ b ∧ b < a + 4 then byteOf v (b - a) else m.readByte b := by
  unfold Memory.writeWord
  simp only [readByte_writeByte]
  by_cases h0 : b = a
  · subst h0; simp
  by_cases h1 : b = a + 1
  · subst h1; simp
  by_cases h2 : b = a + 2
  · subst h2; simp
  by_cases h3 : b = a + 3
  · subst h3; simp
  have hn : ¬ (a ≤ b ∧ b < a + 4) := by omega
  simp [h0, h1, h2, h3, hn]

/-- A byte read after a copy of consecutive bytes. -/
theorem readByte_writeBytes (bs : List Byte) (m : Memory) (a b : Nat) :
    (m.writeBytes a bs).readByte b = if a ≤ b ∧ b < a + bs.length then bs.getD (b - a) 0 else m.readByte b := by
  induction bs generalizing m a with
  | nil =>
    simp [Memory.writeBytes]
  | cons v bs ih =>
    rw [Memory.writeBytes, ih, readByte_writeByte]
    by_cases h0 : b = a
    · subst h0; simp
    by_cases h : a + 1 ≤ b ∧ b < a + 1 + bs.length
    · have h' : a ≤ b ∧ b < a + (v :: bs).length := by simp; omega
      obtain ⟨k, hk⟩ : ∃ k, b - a = k + 1 := ⟨b - (a + 1), by omega⟩
      have hk' : b - (a + 1) = k := by omega
      rw [if_pos h, if_pos h', hk, hk', List.getD_cons_succ]
    · have h' : ¬ (a ≤ b ∧ b < a + (v :: bs).length) := by simp; omega
      rw [if_neg h, if_neg h', if_neg h0]

/-! ### The canonical form -/

theorem wf_nil : Memory.wf [] := ⟨List.Pairwise.nil, fun _ h => absurd h (by simp)⟩

theorem wf_erase {m : Memory} (h : m.wf) (a : Nat) : (m.erase a).wf := by
  refine ⟨?_, fun c hc => h.2 c (mem_erase.mp hc).1⟩
  have hp := h.1
  clear h
  induction m with
  | nil => simp [Memory.erase]
  | cons c m ih =>
    rw [List.pairwise_cons] at hp
    by_cases hc : c.1 = a
    · rw [show Memory.erase (c :: m) a = Memory.erase m a by simp [Memory.erase, hc]]
      exact ih hp.2
    · rw [show Memory.erase (c :: m) a = c :: Memory.erase m a by simp [Memory.erase, hc], List.pairwise_cons]
      exact ⟨fun d hd => hp.1 d (mem_erase.mp hd).1, ih hp.2⟩

theorem wf_insert {m : Memory} {a : Nat} {v : Byte} (h : m.wf) (ha : ∀ c ∈ m, c.1 ≠ a) (hv : v ≠ 0) : (m.insert a v).wf := by
  constructor
  · have hp := h.1
    clear h
    induction m with
    | nil => simp [Memory.insert]
    | cons c m ih =>
      have hc : c.1 ≠ a := ha c (by simp)
      by_cases hlt : a < c.1
      · rw [show Memory.insert (c :: m) a v = (a, v) :: c :: m by simp [Memory.insert, hlt], List.pairwise_cons]
        refine ⟨fun d hd => ?_, hp⟩
        rcases List.mem_cons.mp hd with rfl | hd
        · exact hlt
        · exact hlt.trans ((List.pairwise_cons.mp hp).1 d hd)
      · rw [show Memory.insert (c :: m) a v = c :: Memory.insert m a v by simp [Memory.insert, hlt], List.pairwise_cons]
        refine ⟨fun d hd => ?_, ih (fun d hd => ha d (by simp [hd])) (List.pairwise_cons.mp hp).2⟩
        rcases mem_insert.mp hd with rfl | hd
        · show c.1 < a
          omega
        · exact (List.pairwise_cons.mp hp).1 d hd
  · intro c hc
    rcases mem_insert.mp hc with rfl | hc
    · exact hv
    · exact h.2 c hc

/-- Every byte write keeps the canonical form. -/
theorem wf_writeByte {m : Memory} (h : m.wf) (a : Nat) (v : Byte) : (m.writeByte a v).wf := by
  unfold Memory.writeByte
  split
  · exact wf_erase h a
  · exact wf_insert (wf_erase h a) (fun c hc => (mem_erase.mp hc).2) ‹_›

/-- Every word write keeps the canonical form. -/
theorem wf_writeWord {m : Memory} (h : m.wf) (a : Nat) (v : Word) : (m.writeWord a v).wf :=
  wf_writeByte (wf_writeByte (wf_writeByte (wf_writeByte h _ _) _ _) _ _) _ _

/-- Every copy of bytes keeps the canonical form. -/
theorem wf_writeBytes {m : Memory} (h : m.wf) (a : Nat) (bs : List Byte) : (m.writeBytes a bs).wf := by
  induction bs generalizing m a with
  | nil => exact h
  | cons b bs ih => exact ih (wf_writeByte h a b) (a + 1)

theorem reset_mem_wf : State.reset.mem.wf := wf_nil

/-! ### Inside the array -/

theorem within_writeByte {m : Memory} {n : Nat} (h : m.within n) {a : Nat} (ha : a < n) (v : Byte) :
    (m.writeByte a v).within n := by
  intro c hc
  unfold Memory.writeByte at hc
  split at hc
  · exact h c (mem_erase.mp hc).1
  · rcases mem_insert.mp hc with rfl | hc
    · exact ha
    · exact h c (mem_erase.mp hc).1

theorem within_writeWord {m : Memory} {n : Nat} (h : m.within n) {a : Nat} (ha : a + 4 ≤ n) (v : Word) :
    (m.writeWord a v).within n :=
  within_writeByte (within_writeByte (within_writeByte (within_writeByte h (by omega) _) (by omega) _) (by omega) _) (by omega) _

theorem within_writeBytes {m : Memory} {n : Nat} (h : m.within n) {a : Nat} (bs : List Byte) (ha : a + bs.length ≤ n) :
    (m.writeBytes a bs).within n := by
  induction bs generalizing m a with
  | nil => exact h
  | cons b bs ih =>
    simp only [List.length_cons] at ha
    exact ih (within_writeByte h (by omega) b) (by omega)

end Sys2Proof.Machine
end

