-- ==== Sys2Proof/Laws/Ops.lean ====
section
/-! SUPPORT. What each shared operation can answer, said once: memory accesses, the end of the execute phase, the guard, the info
update, and the inversion of a step. -/

namespace Sys2Proof.Machine

/-! ### Accesses -/

theorem inMem_iff (s : State) (a : Word) : s.inMem a = true ↔ a.toNat + 4 ≤ s.cfg.memSize := by simp [State.inMem]

/-- The bound as the spec writes it, `u(a) ≤ MEM_SIZE − 4`, for every MEM_SIZE of R10. -/
theorem inMem_iff_of_valid {s : State} (h : s.cfg.Valid) (a : Word) : s.inMem a = true ↔ a.toNat ≤ s.cfg.memSize - 4 := by
  have := h.1
  rw [inMem_iff]
  omega

theorem memRead_of_inMem {s : State} {a : Word} (h : s.inMem a = true) : memRead s a = .ok (s.mem.readWord a.toNat) := by
  simp [memRead, h]

theorem memRead_of_not_inMem {s : State} {a : Word} (h : s.inMem a = false) : memRead s a = .error (.memOutOfRange a) := by
  simp [memRead, h]

theorem memWrite_of_inMem {s : State} {a : Word} (h : s.inMem a = true) (v : Word) :
    memWrite s a v = .ok { s with mem := s.mem.writeWord a.toNat v } := by simp [memWrite, h]

theorem memWrite_of_not_inMem {s : State} {a : Word} (h : s.inMem a = false) (v : Word) :
    memWrite s a v = .error (.memOutOfRange a) := by simp [memWrite, h]

/-- Everything a data read can answer. -/
theorem memRead_cases (s : State) (a : Word) :
    (s.inMem a = true ∧ memRead s a = .ok (s.mem.readWord a.toNat)) ∨
      (s.inMem a = false ∧ memRead s a = .error (.memOutOfRange a)) := by
  cases h : s.inMem a
  · exact .inr ⟨rfl, memRead_of_not_inMem h⟩
  · exact .inl ⟨rfl, memRead_of_inMem h⟩

/-- Everything a data write can answer. -/
theorem memWrite_cases (s : State) (a v : Word) :
    (s.inMem a = true ∧ memWrite s a v = .ok { s with mem := s.mem.writeWord a.toNat v }) ∨
      (s.inMem a = false ∧ memWrite s a v = .error (.memOutOfRange a)) := by
  cases h : s.inMem a
  · exact .inr ⟨rfl, memWrite_of_not_inMem h v⟩
  · exact .inl ⟨rfl, memWrite_of_inMem h v⟩

/-! ### The end of the execute phase -/

@[simp] theorem endExecute_ok (s t : State) : endExecute s (.ok t) = .next (advancePc t) := rfl
@[simp] theorem endExecute_error (s : State) (k : Fault) : endExecute s (.error k) = .next (raiseFault s k) := rfl
@[simp] theorem writeResult_ok (s : State) (rd : RegId) (v : Word) : writeResult s rd (.ok v) = .ok (writeReg s rd v) := rfl
@[simp] theorem writeResult_error (s : State) (rd : RegId) (k : Fault) : writeResult s rd (.error k) = .error k := rfl

/-- A write of a result either writes the register and advances, or takes the fault. -/
theorem endExecute_writeResult_cases {s t : State} {rd : RegId} {y : Except Fault Word}
    (h : endExecute s (writeResult s rd y) = .next t) :
    (∃ v, y = .ok v ∧ t = advancePc (writeReg s rd v)) ∨ ∃ k, y = .error k ∧ t = raiseFault s k := by
  cases y with
  | ok v => exact .inl ⟨v, rfl, (Host.Outcome.next.inj h).symm⟩
  | error k => exact .inr ⟨k, rfl, (Host.Outcome.next.inj h).symm⟩

/-! ### The guard and the step -/

theorem running_iff (s : State) : s.running = true ↔ s.halt = false ∧ s.fault = none ∧ s.inMem s.pc = true := by
  simp [State.running, and_assoc]

theorem step_of_not_running {s : State} (h : s.running = false) : step s = .next s := by simp [step, h]

theorem step_of_decode_error {s : State} {e : DecodeError} (h : s.running = true)
    (hd : decode s.cfg.haltDecode (fetch s) = .error e) : step s = .next (stepUnrecognized (fetch s) s) := by
  simp [step, h, hd]

@[simp] theorem recordInfo_next (w : Word) (t : State) :
    recordInfo w (.next t) = if t.fault.isSome then .next t else .next (setInfo t w) := rfl

/-- Everything a step can do: nothing (the guard), the no-op of an unrecognized word, a fault, or an instruction and its info. -/
theorem step_cases {s t : State} (h : step s = .next t) :
    (s.running = false ∧ t = s) ∨
      (s.running = true ∧ (∃ e, decode s.cfg.haltDecode (fetch s) = .error e) ∧ t = stepUnrecognized (fetch s) s) ∨
      (s.running = true ∧ ∃ i u, decode s.cfg.haltDecode (fetch s) = .ok i ∧ exec i s = .next u ∧
        ((u.fault ≠ none ∧ t = u) ∨ (u.fault = none ∧ t = setInfo u (fetch s)))) := by
  unfold step at h
  split at h
  · rename_i hr
    split at h
    · rename_i i hd
      refine .inr (.inr ⟨hr, i, ?_⟩)
      cases he : exec i s with
      | next u =>
        rw [he, recordInfo_next] at h
        refine ⟨u, hd, rfl, ?_⟩
        split at h
        · exact .inl ⟨by simpa [Option.isSome_iff_ne_none] using ‹u.fault.isSome = true›, (Host.Outcome.next.inj h).symm⟩
        · exact .inr ⟨by simpa using ‹¬u.fault.isSome = true›, (Host.Outcome.next.inj h).symm⟩
      | fault r => rw [he] at h; cases h
      | refused r => rw [he] at h; cases h
    · rename_i e hd
      exact .inr (.inl ⟨hr, ⟨e, hd⟩, (Host.Outcome.next.inj h).symm⟩)
  · rename_i hr
    exact .inl ⟨by simpa using hr, (Host.Outcome.next.inj h).symm⟩

end Sys2Proof.Machine
end

