-- ==== Sys2Proof/Laws/Exec.lean ====
section
/-! SUPPORT. Everything the execution of an instruction can answer, said once over all instructions; the ALU's cases. -/

namespace Sys2Proof.Machine

/-- A shift answers a word, or the fault of R136 under SHIFT_GE32 = fault with an amount of 32 or more. -/
theorem shift_cases (g : ShiftGe32) (k : ShiftKind) (a : Word) (n : Nat) :
    (∃ v, shift g k a n = .ok v) ∨ (g = .fault ∧ 32 ≤ n ∧ shift g k a n = .error .shiftOutOfRange) := by
  by_cases h : n < 32
  · exact .inl ⟨shiftSmall k a n, by simp only [shift, if_pos h]⟩
  · cases g with
    | mathematical => exact .inl ⟨shiftAllOut k a, by simp only [shift, if_neg h]⟩
    | mask5 => exact .inl ⟨shiftSmall k a (n % 32), by simp only [shift, if_neg h]⟩
    | fault => exact .inr ⟨rfl, by omega, by simp only [shift, if_neg h]⟩

/-- The ALU answers a word, or the fault of an oversize shift. -/
theorem alu_cases (g : ShiftGe32) (op : AluOp) (a b : Word) :
    (∃ v, alu g op a b = .ok v) ∨
      (g = .fault ∧ 32 ≤ b.toNat ∧ (op = .SLL ∨ op = .SRL ∨ op = .SRA) ∧ alu g op a b = .error .shiftOutOfRange) := by
  cases op with
  | ADD => exact .inl ⟨_, rfl⟩
  | SUB => exact .inl ⟨_, rfl⟩
  | XOR => exact .inl ⟨_, rfl⟩
  | OR => exact .inl ⟨_, rfl⟩
  | AND => exact .inl ⟨_, rfl⟩
  | SLL => exact (shift_cases g .SLL a b.toNat).imp id fun h => ⟨h.1, h.2.1, .inl rfl, h.2.2⟩
  | SRL => exact (shift_cases g .SRL a b.toNat).imp id fun h => ⟨h.1, h.2.1, .inr (.inl rfl), h.2.2⟩
  | SRA => exact (shift_cases g .SRA a b.toNat).imp id fun h => ⟨h.1, h.2.1, .inr (.inr rfl), h.2.2⟩

/-- The shapes an execution can take. -/
inductive ExecShape (i : Instr) (s t : State) : Prop where
  /-- The one register written (R28) and the pc advanced. -/
  | write (rd : RegId) (v : Word) (hd : i.dest = some rd) (ht : t = advancePc (writeReg s rd v))
  /-- The four bytes of `sw` (R166) and the pc advanced. -/
  | store (rs2 rs1 : RegId) (imm : BitVec 12) (hi : i = .sw rs2 rs1 imm) (hm : s.inMem (effectiveAddress s rs1 imm) = true)
      (ht : t = advancePc { s with mem := s.mem.writeWord (effectiveAddress s rs1 imm).toNat (readReg s rs2) })
  /-- A taken branch (R125, R156). -/
  | taken (off : BitVec 13) (hi : i.mnemonic.format = .B) (ha : offsetAligned off = true)
      (ht : t = advancePc (redirect s (branchOffset off)))
  /-- A branch not taken (R157). -/
  | notTaken (hi : i.mnemonic.format = .B) (ht : t = advancePc s)
  /-- The halt (R169). -/
  | halt (hi : i = .ebreak) (ht : t = advancePc (setHalt s))
  /-- A fault (R134). -/
  | fault (k : Fault) (ht : t = raiseFault s k)

theorem execRegister_shape {i : Instr} {op : AluOp} {rd rs1 rs2 : RegId} {s t : State} (hd : i.dest = some rd)
    (h : execRegister op rd rs1 rs2 s = .next t) : ExecShape i s t := by
  obtain ⟨v, -, ht⟩ | ⟨k, -, ht⟩ := endExecute_writeResult_cases h
  · exact .write rd v hd ht
  · exact .fault k ht

theorem execImmediate_shape {i : Instr} {op : AluOp} {rd rs1 : RegId} {imm : BitVec 12} {s t : State} (hd : i.dest = some rd)
    (h : execImmediate op rd rs1 imm s = .next t) : ExecShape i s t := by
  obtain ⟨v, -, ht⟩ | ⟨k, -, ht⟩ := endExecute_writeResult_cases h
  · exact .write rd v hd ht
  · exact .fault k ht

theorem execBranch_shape {i : Instr} {c : Cond} {rs1 rs2 : RegId} {off : BitVec 13} {s t : State}
    (hi : i.mnemonic.format = .B) (h : execBranch c rs1 rs2 off s = .next t) : ExecShape i s t := by
  have ht := (Host.Outcome.next.inj h).symm
  split at ht
  · rename_i hb
    exact .taken off hi (by simp only [branchTaken, Bool.and_eq_true] at hb; exact hb.2) ht
  · exact .notTaken hi ht

/-- Everything the execution of an instruction can answer. -/
theorem exec_shape {i : Instr} {s t : State} (h : exec i s = .next t) : ExecShape i s t := by
  cases i with
  | add rd rs1 rs2 => exact execRegister_shape (op := .ADD) (rs1 := rs1) (rs2 := rs2) rfl h
  | sub rd rs1 rs2 => exact execRegister_shape (op := .SUB) (rs1 := rs1) (rs2 := rs2) rfl h
  | xor rd rs1 rs2 => exact execRegister_shape (op := .XOR) (rs1 := rs1) (rs2 := rs2) rfl h
  | or rd rs1 rs2 => exact execRegister_shape (op := .OR) (rs1 := rs1) (rs2 := rs2) rfl h
  | and rd rs1 rs2 => exact execRegister_shape (op := .AND) (rs1 := rs1) (rs2 := rs2) rfl h
  | sll rd rs1 rs2 => exact execRegister_shape (op := .SLL) (rs1 := rs1) (rs2 := rs2) rfl h
  | srl rd rs1 rs2 => exact execRegister_shape (op := .SRL) (rs1 := rs1) (rs2 := rs2) rfl h
  | sra rd rs1 rs2 => exact execRegister_shape (op := .SRA) (rs1 := rs1) (rs2 := rs2) rfl h
  | addi rd rs1 imm => exact execImmediate_shape (op := .ADD) (rs1 := rs1) (imm := imm) rfl h
  | xori rd rs1 imm => exact execImmediate_shape (op := .XOR) (rs1 := rs1) (imm := imm) rfl h
  | ori rd rs1 imm => exact execImmediate_shape (op := .OR) (rs1 := rs1) (imm := imm) rfl h
  | andi rd rs1 imm => exact execImmediate_shape (op := .AND) (rs1 := rs1) (imm := imm) rfl h
  | lw rd rs1 imm =>
    obtain ⟨v, -, ht⟩ | ⟨k, -, ht⟩ := endExecute_writeResult_cases h
    · exact .write rd v rfl ht
    · exact .fault k ht
  | sw rs2 rs1 imm =>
    obtain ⟨hm, hw⟩ | ⟨-, hw⟩ := memWrite_cases s (effectiveAddress s rs1 imm) (readReg s rs2)
    · rw [exec, execSw, hw] at h
      exact .store rs2 rs1 imm rfl hm (Host.Outcome.next.inj h).symm
    · rw [exec, execSw, hw] at h
      exact .fault _ (Host.Outcome.next.inj h).symm
  | beq rs1 rs2 off => exact execBranch_shape (c := .EQ) (rs1 := rs1) (rs2 := rs2) (off := off) rfl h
  | bne rs1 rs2 off => exact execBranch_shape (c := .NE) (rs1 := rs1) (rs2 := rs2) (off := off) rfl h
  | blt rs1 rs2 off => exact execBranch_shape (c := .LTU) (rs1 := rs1) (rs2 := rs2) (off := off) rfl h
  | bge rs1 rs2 off => exact execBranch_shape (c := .GEU) (rs1 := rs1) (rs2 := rs2) (off := off) rfl h
  | ebreak => exact .halt rfl (Host.Outcome.next.inj h).symm

/-- No instruction writes the configuration (00_scope.md R10). -/
theorem exec_cfg {i : Instr} {s t : State} (h : exec i s = .next t) : t.cfg = s.cfg := by
  cases exec_shape h <;> subst_vars <;> rfl

end Sys2Proof.Machine
end

