-- ==== Sys2Proof/Laws/PerInstr.lean ====
section
/-! SUPPORT. Statements made per instruction, about instructions as syntax: the opcode and the format of the encoded word
(30_encoding.md R76, R77, R91, R92, R106). -/

namespace Sys2Proof.Laws.EncodedFormat

/-- The low 7 bits of an instruction's word are its row's opcode, and the word's format is its row's format. -/
def Statement (i : Instr) : Prop :=
  opcodeOf (encode i) = i.mnemonic.opcode ∧ formatOf (encode i) = i.mnemonic.format

/-- The statement follows from the opcode alone. -/
theorem of_opcode {i : Instr} {f : Format} (h : opcodeOf (encode i) = i.mnemonic.opcode) (hf : i.mnemonic.format = f)
    (hs : ∀ w : Word, opcodeOf w = i.mnemonic.opcode → formatOf w = f) : Statement i := ⟨h, (hs _ h).trans hf.symm⟩

theorem add (rd rs1 rs2 : RegId) : Statement (.add rd rs1 rs2) :=
  of_opcode (f := .R) (by simp [encode, encodeRow, Instr.mnemonic, Mnemonic.opcode]) rfl
    fun w h => by simp only [formatOf, h]; rfl

theorem sub (rd rs1 rs2 : RegId) : Statement (.sub rd rs1 rs2) :=
  of_opcode (f := .R) (by simp [encode, encodeRow, Instr.mnemonic, Mnemonic.opcode]) rfl
    fun w h => by simp only [formatOf, h]; rfl

theorem xor (rd rs1 rs2 : RegId) : Statement (.xor rd rs1 rs2) :=
  of_opcode (f := .R) (by simp [encode, encodeRow, Instr.mnemonic, Mnemonic.opcode]) rfl
    fun w h => by simp only [formatOf, h]; rfl

theorem or (rd rs1 rs2 : RegId) : Statement (.or rd rs1 rs2) :=
  of_opcode (f := .R) (by simp [encode, encodeRow, Instr.mnemonic, Mnemonic.opcode]) rfl
    fun w h => by simp only [formatOf, h]; rfl

theorem and (rd rs1 rs2 : RegId) : Statement (.and rd rs1 rs2) :=
  of_opcode (f := .R) (by simp [encode, encodeRow, Instr.mnemonic, Mnemonic.opcode]) rfl
    fun w h => by simp only [formatOf, h]; rfl

theorem sll (rd rs1 rs2 : RegId) : Statement (.sll rd rs1 rs2) :=
  of_opcode (f := .R) (by simp [encode, encodeRow, Instr.mnemonic, Mnemonic.opcode]) rfl
    fun w h => by simp only [formatOf, h]; rfl

theorem srl (rd rs1 rs2 : RegId) : Statement (.srl rd rs1 rs2) :=
  of_opcode (f := .R) (by simp [encode, encodeRow, Instr.mnemonic, Mnemonic.opcode]) rfl
    fun w h => by simp only [formatOf, h]; rfl

theorem sra (rd rs1 rs2 : RegId) : Statement (.sra rd rs1 rs2) :=
  of_opcode (f := .R) (by simp [encode, encodeRow, Instr.mnemonic, Mnemonic.opcode]) rfl
    fun w h => by simp only [formatOf, h]; rfl

theorem addi (rd rs1 : RegId) (imm : BitVec 12) : Statement (.addi rd rs1 imm) :=
  of_opcode (f := .I) (by simp [encode, encodeRowI, Instr.mnemonic, Mnemonic.opcode]) rfl
    fun w h => by simp only [formatOf, h]; rfl

theorem xori (rd rs1 : RegId) (imm : BitVec 12) : Statement (.xori rd rs1 imm) :=
  of_opcode (f := .I) (by simp [encode, encodeRowI, Instr.mnemonic, Mnemonic.opcode]) rfl
    fun w h => by simp only [formatOf, h]; rfl

theorem ori (rd rs1 : RegId) (imm : BitVec 12) : Statement (.ori rd rs1 imm) :=
  of_opcode (f := .I) (by simp [encode, encodeRowI, Instr.mnemonic, Mnemonic.opcode]) rfl
    fun w h => by simp only [formatOf, h]; rfl

theorem andi (rd rs1 : RegId) (imm : BitVec 12) : Statement (.andi rd rs1 imm) :=
  of_opcode (f := .I) (by simp [encode, encodeRowI, Instr.mnemonic, Mnemonic.opcode]) rfl
    fun w h => by simp only [formatOf, h]; rfl

theorem lw (rd rs1 : RegId) (imm : BitVec 12) : Statement (.lw rd rs1 imm) :=
  of_opcode (f := .I) (by simp [encode, encodeRowI, Instr.mnemonic, Mnemonic.opcode]) rfl
    fun w h => by simp only [formatOf, h]; rfl

theorem sw (rs2 rs1 : RegId) (imm : BitVec 12) : Statement (.sw rs2 rs1 imm) :=
  of_opcode (f := .S) (by simp [encode, encodeRowS, Instr.mnemonic, Mnemonic.opcode]) rfl
    fun w h => by simp only [formatOf, h]; rfl

theorem beq (rs1 rs2 : RegId) (off : BitVec 13) : Statement (.beq rs1 rs2 off) :=
  of_opcode (f := .B) (by simp [encode, encodeRowB, Instr.mnemonic, Mnemonic.opcode]) rfl
    fun w h => by simp only [formatOf, h]; rfl

theorem bne (rs1 rs2 : RegId) (off : BitVec 13) : Statement (.bne rs1 rs2 off) :=
  of_opcode (f := .B) (by simp [encode, encodeRowB, Instr.mnemonic, Mnemonic.opcode]) rfl
    fun w h => by simp only [formatOf, h]; rfl

theorem blt (rs1 rs2 : RegId) (off : BitVec 13) : Statement (.blt rs1 rs2 off) :=
  of_opcode (f := .B) (by simp [encode, encodeRowB, Instr.mnemonic, Mnemonic.opcode]) rfl
    fun w h => by simp only [formatOf, h]; rfl

theorem bge (rs1 rs2 : RegId) (off : BitVec 13) : Statement (.bge rs1 rs2 off) :=
  of_opcode (f := .B) (by simp [encode, encodeRowB, Instr.mnemonic, Mnemonic.opcode]) rfl
    fun w h => by simp only [formatOf, h]; rfl

theorem ebreak : Statement .ebreak := ⟨by decide, by decide⟩

end Sys2Proof.Laws.EncodedFormat
end

