-- ==== Sys2Proof/Tests/Slice0.lean ====
section
/-! SUPPORT. Tests with expected results from the spec (95_test_vectors.md and the examples of the rules), the smoke test of the
well-formedness checks, a word written out bit by bit for every instruction, and a witness for the hypotheses of every statement. -/

namespace Sys2Proof.Tests

open Sys2Proof.Machine

/-! ### Helpers: small states and what a step left -/

/-- The zeroed state with `x1 = a`, `x2 = b` and `pc = 0x100`, under a shift setting. -/
def at0x100 (g : ShiftGe32) (a b : Word) : State :=
  writeReg (writeReg { State.resetWith { Config.testVectors with shiftGe32 := g } with pc := 0x100 } 1 a) 2 b

/-- The state with a word at its pc. -/
def placed (s : State) (w : Word) : State := { s with mem := s.mem.writeWord s.pc.toNat w }

/-- The state with bytes at an address. -/
def holding (s : State) (a : Nat) (bs : List Byte) : State := { s with mem := s.mem.writeBytes a bs }

/-- Register `r`, the pc and the Boolean of one step of `w` at `pc`. -/
def stepReg (s : State) (w : Word) (r : RegId) : Word × Word × Bool :=
  (readReg (stepResult (placed s w)).1 r, (stepResult (placed s w)).1.pc, (stepResult (placed s w)).2)

/-- The pc and the Boolean of one step of `w` at `pc`. -/
def stepPc (s : State) (w : Word) : Word × Bool := ((stepResult (placed s w)).1.pc, (stepResult (placed s w)).2)

/-- The fault and the Boolean of one step of `w` at `pc`. -/
def stepFault (s : State) (w : Word) : Option Fault × Bool :=
  ((stepResult (placed s w)).1.fault, (stepResult (placed s w)).2)

/-- The words of a source given as strings, or the error. -/
def assembleStrings (ls : List String) : Except AsmError (List Word) :=
  match openSource (some (ls.map String.toList)) with
  | .ok src  => assemble src
  | .error e => .error e

/-! ### WellFormed: an ill-formed term for each check, and a well-formed one -/

theorem test_wf_beq_odd_refused : (Instr.beq 1 2 7).wf = false := by decide

theorem test_wf_bne_odd_refused : (Instr.bne 1 2 7).wf = false := by decide

theorem test_wf_blt_odd_refused : (Instr.blt 1 2 7).wf = false := by decide

theorem test_wf_bge_odd_refused : (Instr.bge 1 2 7).wf = false := by decide

theorem test_wf_even_accepted : (Instr.beq 1 2 6).wf = true ∧ (Instr.beq 1 2 0x1000).wf = true := by decide

theorem test_config_bad_refused : ¬ ({ Config.testVectors with memSize := 3 } : Config).Valid ∧
    ¬ ({ Config.testVectors with memSize := 2 ^ 32 + 1 } : Config).Valid ∧
    ¬ ({ Config.testVectors with loadBase := 2 } : Config).Valid ∧
    ¬ ({ Config.testVectors with loadBase := 1024 } : Config).Valid := by decide

theorem test_config_good_accepted : Config.testVectors.Valid ∧
    ({ Config.testVectors with memSize := 2 ^ 32, loadBase := 0xFFFFFFFC } : Config).Valid ∧
    ({ Config.testVectors with memSize := 4 } : Config).Valid := by decide

theorem test_memory_bad_refused : ¬ Memory.wf [(1, 5), (1, 6)] ∧ ¬ Memory.wf [(2, 5), (1, 6)] ∧ ¬ Memory.wf [(1, 0)] := by decide

/-! ### Decode: one word for every instruction, bit by bit from R72 to R75 and R94, R95, R93 -/

/-- funct7 0000000, rs2 2, rs1 1, funct3 000, rd 3, opcode 0110011. -/
theorem test_decode_add : decode .canonical 0b0000000_00010_00001_000_00011_0110011 = .ok (.add 3 1 2) := by decide

/-- funct7 0100000, rs2 2, rs1 1, funct3 000, rd 3, opcode 0110011. -/
theorem test_decode_sub : decode .canonical 0b0100000_00010_00001_000_00011_0110011 = .ok (.sub 3 1 2) := by decide

/-- funct7 0000000, rs2 2, rs1 1, funct3 100, rd 3, opcode 0110011. -/
theorem test_decode_xor : decode .canonical 0b0000000_00010_00001_100_00011_0110011 = .ok (.xor 3 1 2) := by decide

/-- funct7 0000000, rs2 2, rs1 1, funct3 110, rd 3, opcode 0110011. -/
theorem test_decode_or : decode .canonical 0b0000000_00010_00001_110_00011_0110011 = .ok (.or 3 1 2) := by decide

/-- funct7 0000000, rs2 2, rs1 1, funct3 111, rd 3, opcode 0110011. -/
theorem test_decode_and : decode .canonical 0b0000000_00010_00001_111_00011_0110011 = .ok (.and 3 1 2) := by decide

/-- funct7 0000000, rs2 2, rs1 1, funct3 001, rd 3, opcode 0110011. -/
theorem test_decode_sll : decode .canonical 0b0000000_00010_00001_001_00011_0110011 = .ok (.sll 3 1 2) := by decide

/-- funct7 0000000, rs2 2, rs1 1, funct3 101, rd 3, opcode 0110011. -/
theorem test_decode_srl : decode .canonical 0b0000000_00010_00001_101_00011_0110011 = .ok (.srl 3 1 2) := by decide

/-- funct7 0100000, rs2 2, rs1 1, funct3 101, rd 3, opcode 0110011. -/
theorem test_decode_sra : decode .canonical 0b0100000_00010_00001_101_00011_0110011 = .ok (.sra 3 1 2) := by decide

/-- imm −2, rs1 1, funct3 000, rd 3, opcode 0010011. -/
theorem test_decode_addi : decode .canonical 0b111111111110_00001_000_00011_0010011 = .ok (.addi 3 1 (-2)) := by decide

/-- imm −2, rs1 1, funct3 100, rd 3, opcode 0010011. -/
theorem test_decode_xori : decode .canonical 0b111111111110_00001_100_00011_0010011 = .ok (.xori 3 1 (-2)) := by decide

/-- imm −2, rs1 1, funct3 110, rd 3, opcode 0010011. -/
theorem test_decode_ori : decode .canonical 0b111111111110_00001_110_00011_0010011 = .ok (.ori 3 1 (-2)) := by decide

/-- imm −2, rs1 1, funct3 111, rd 3, opcode 0010011. -/
theorem test_decode_andi : decode .canonical 0b111111111110_00001_111_00011_0010011 = .ok (.andi 3 1 (-2)) := by decide

/-- imm −4, rs1 1, funct3 010, rd 3, opcode 0000011. -/
theorem test_decode_lw : decode .canonical 0b111111111100_00001_010_00011_0000011 = .ok (.lw 3 1 (-4)) := by decide

/-- imm[11:5] of −4, rs2 2, rs1 1, funct3 010, imm[4:0] of −4, opcode 0100011. -/
theorem test_decode_sw : decode .canonical 0b1111111_00010_00001_010_11100_0100011 = .ok (.sw 2 1 (-4)) := by decide

/-- imm 8: imm[12], imm[10:5], rs2 2, rs1 1, funct3 000, imm[4:1], imm[11], opcode 1100011. -/
theorem test_decode_beq : decode .canonical 0b0_000000_00010_00001_000_0100_0_1100011 = .ok (.beq 1 2 8) := by decide

/-- imm −8: imm[12], imm[10:5], rs2 2, rs1 1, funct3 001, imm[4:1], imm[11], opcode 1100011. -/
theorem test_decode_bne : decode .canonical 0b1_111111_00010_00001_001_1100_1_1100011 = .ok (.bne 1 2 (-8)) := by decide

/-- imm 4094: imm[12], imm[10:5], rs2 2, rs1 1, funct3 100, imm[4:1], imm[11], opcode 1100011. -/
theorem test_decode_blt : decode .canonical 0b0_111111_00010_00001_100_1111_1_1100011 = .ok (.blt 1 2 4094) := by decide

/-- imm −4096: imm[12], imm[10:5], rs2 2, rs1 1, funct3 101, imm[4:1], imm[11], opcode 1100011. -/
theorem test_decode_bge : decode .canonical 0b1_000000_00010_00001_101_0000_0_1100011 = .ok (.bge 1 2 (-4096)) := by decide

/-- imm 1, rs1 0, funct3 000, rd 0, opcode 1110011. -/
theorem test_decode_ebreak : decode .canonical 0b000000000001_00000_000_00000_1110011 = .ok .ebreak := by decide

/-- 95, HD2 to HD5: the halt words under the three settings. -/
theorem test_halt_decode :
    decode .exactWord 0x001080F3 = .error (.unknownSelector .I) ∧ decode .opcodeOnly 0x00000073 = .ok .ebreak ∧
    decode .canonical 0x00000073 = .error (.unknownSelector .I) ∧ decode .canonical 0x001FF0F3 = .error (.unknownSelector .I) ∧
    decode .opcodeOnly 0x001FF0F3 = .ok .ebreak := by decide

/-- The rows of the table do not overlap: two of them differ in a bit both masks hold. -/
theorem test_opcode_rows_disjoint :
    opcodeTable.Pairwise (fun a b => (a.mask &&& b.mask) &&& (a.matchValue ^^^ b.matchValue) ≠ 0) := by decide

theorem test_decode_bytes : decodeBytes .canonical [0xB3, 0x81, 0x20, 0x00, 0x73] = .ok (.add 3 1 2, [0x73]) ∧
    decodeBytes .canonical [0xB3, 0x81, 0x20] = .error .truncated := by decide

theorem test_decodeTableWord : decodeTableWord 32 0x402081B3 = some (.sub 3 1 2) ∧ decodeTableWord 32 0 = none := by decide

/-- 95, DE11, DE22 and DE27: the info of a store, of an unlisted funct3, of an unlisted branch. -/
theorem test_info : infoOf .canonical 0xFE20AE23 = ⟨.S, some .sw, 0, 1, 2, -4, false⟩ ∧
    infoOf .canonical 0x0020A1B3 = ⟨.R, none, 3, 1, 2, 0, true⟩ ∧
    infoOf .canonical 0x0020E463 = ⟨.B, none, 0, 1, 2, 8, true⟩ := by decide

/-! ### One step of each instruction (95, parts R, I, B, M, S) -/

/-- RR2 -/
theorem test_add : stepReg (at0x100 .mathematical 0xFFFFFFFF 1) 0x002081B3 3 = (0, 0x104, true) := by decide

/-- RR4 -/
theorem test_sub : stepReg (at0x100 .mathematical 0 1) 0x402081B3 3 = (0xFFFFFFFF, 0x104, true) := by decide

/-- R140 -/
theorem test_xor : stepReg (at0x100 .mathematical 0xF0F0F0F0 0xFF00FF00) 0x0020C1B3 3 = (0x0FF00FF0, 0x104, true) := by decide

/-- R141 -/
theorem test_or : stepReg (at0x100 .mathematical 0xF0F0F0F0 0x0F0F0000) 0x0020E1B3 3 = (0xFFFFF0F0, 0x104, true) := by decide

/-- R142 -/
theorem test_and : stepReg (at0x100 .mathematical 0xF0F0F0F0 0xFF00FF00) 0x0020F1B3 3 = (0xF000F000, 0x104, true) := by decide

/-- RR9 -/
theorem test_sll : stepReg (at0x100 .mathematical 1 31) 0x002091B3 3 = (0x80000000, 0x104, true) := by decide

/-- RR19 -/
theorem test_sll_mask5 : stepReg (at0x100 .mask5 1 33) 0x002091B3 3 = (2, 0x104, true) := by decide

/-- R144 -/
theorem test_srl : stepReg (at0x100 .mathematical 0x80000000 4) 0x0020D1B3 3 = (0x08000000, 0x104, true) := by decide

/-- R144 -/
theorem test_srl_all_out : stepReg (at0x100 .mathematical 0xFFFFFFFF 32) 0x0020D1B3 3 = (0, 0x104, true) := by decide

/-- R145 -/
theorem test_sra : stepReg (at0x100 .mathematical 0x80000000 4) 0x4020D1B3 3 = (0xF8000000, 0x104, true) := by decide

/-- RR23 -/
theorem test_sra_all_out : stepReg (at0x100 .mathematical 0x80000000 0xFFFFFFFF) 0x4020D1B3 3 = (0xFFFFFFFF, 0x104, true) := by decide

/-- RR18 under `fault`: nothing written, the pc unchanged, the step returns false. -/
theorem test_sll_fault : stepFault (at0x100 .fault 1 32) 0x002091B3 = (some .shiftOutOfRange, false) ∧
    stepReg (at0x100 .fault 1 32) 0x002091B3 3 = (0, 0x100, false) := by decide

/-- R138: `add x1, x1, x1` doubles `x1`: sources are read before the destination is written. -/
theorem test_add_self : stepReg (at0x100 .mathematical 5 7) 0x001080B3 1 = (10, 0x104, true) := by decide

/-- RI2 -/
theorem test_addi : stepReg (at0x100 .mathematical 5 0) 0xFFF08193 3 = (4, 0x104, true) := by decide

/-- R151 -/
theorem test_xori : stepReg (at0x100 .mathematical 0x12345678 0) 0xFFF0C193 3 = (0xEDCBA987, 0x104, true) := by decide

/-- R152 -/
theorem test_ori : stepReg (at0x100 .mathematical 0 0) 0x8000E193 3 = (0xFFFFF800, 0x104, true) := by decide

/-- R153 -/
theorem test_andi : stepReg (at0x100 .mathematical 0xFFFFFFFF 0) 0x7FF0F193 3 = (0x7FF, 0x104, true) := by decide

/-- RI11: `addi x0, x0, 9` writes `x[0]`. -/
theorem test_addi_x0 : stepReg (at0x100 .mathematical 0 0) 0x00900013 0 = (9, 0x104, true) := by decide

/-- MS4: an unaligned load. -/
theorem test_lw : stepReg (holding (at0x100 .mathematical 0x200 0) 0x200 [0x44, 0x33, 0x22, 0x11, 0x88, 0x77, 0x66, 0x55]) 0x0020A183 3
    = (0x77881122, 0x104, true) := by decide

/-- MS8: `lw x1, 1021(x0)` faults with its EA. -/
theorem test_lw_fault : stepFault (at0x100 .mathematical 0 0) 0x3FD02083 = (some (.memOutOfRange 0x3FD), false) := by decide

/-- MS1, at 0x200: the bytes lowest first. -/
theorem test_sw : (((List.range 5).map (stepResult (placed (at0x100 .mathematical 0x200 0xDEADBEEF) 0x0020A023)).1.mem.readByte)
    |>.drop 4, (List.range 4).map fun k => (stepResult (placed (at0x100 .mathematical 0x200 0xDEADBEEF) 0x0020A023)).1.mem.readByte
      (0x200 + k)) = ([0], [0xEF, 0xBE, 0xAD, 0xDE]) := by decide

/-- MS10: a store one byte too high writes nothing. -/
theorem test_sw_fault : stepFault (at0x100 .mathematical 1021 7) 0x0020A023 = (some (.memOutOfRange 0x3FD), false) ∧
    (stepResult (placed (at0x100 .mathematical 1021 7) 0x0020A023)).1.mem.readByte 1021 = 0 := by decide

/-- BR1 and BR5: taken, and never taken with an offset that is not a multiple of 4. -/
theorem test_beq : stepPc (at0x100 .mathematical 3 3) 0x00208463 = (0x108, true) ∧
    stepPc (at0x100 .mathematical 3 3) 0x00208363 = (0x104, true) := by decide

/-- BR7: the target wraps below 0. -/
theorem test_beq_wraps : stepPc (at0x100 .mathematical 3 3) 0x80208063 = (0xFFFFF100, true) := by decide

/-- BR3 and BR15. -/
theorem test_bne : stepPc (at0x100 .mathematical 1 0) 0xFE209CE3 = (0xF8, true) ∧
    stepPc (at0x100 .mathematical 5 5) 0xFE209CE3 = (0x104, true) := by decide

/-- BR9 and BR10: unsigned. -/
theorem test_blt : stepPc (at0x100 .mathematical 0xFFFFFFFF 1) 0x0020C463 = (0x104, true) ∧
    stepPc (at0x100 .mathematical 1 0xFFFFFFFF) 0x0020C463 = (0x108, true) := by decide

/-- BR12 and BR13: unsigned. -/
theorem test_bge : stepPc (at0x100 .mathematical 0xFFFFFFFF 1) 0x0020D463 = (0x108, true) ∧
    stepPc (at0x100 .mathematical 1 0xFFFFFFFF) 0x0020D463 = (0x104, true) := by decide

/-- SSQ1: the halting step progresses and advances the pc. -/
theorem test_ebreak : stepPc (at0x100 .mathematical 0 0) 0x00100073 = (0x104, true) ∧
    (stepResult (placed (at0x100 .mathematical 0 0) 0x00100073)).1.halt = true := by decide

/-- SQ6 and SQ7: unrecognized words. -/
theorem test_unrecognized : stepPc (at0x100 .mathematical 0 0) 0 = (0x104, true) ∧
    (stepResult (placed (at0x100 .mathematical 0 0) 0)).1.info = ⟨.NONE, none, 0, 0, 0, 0, true⟩ ∧
    (stepResult (placed (at0x100 .mathematical 0 0) 0x0020A1B3)).1.info.format = .R := by decide

/-- SQ3: the guard at 1021; SQ5: the last word of the memory runs. -/
theorem test_guard : stepResult { State.reset with pc := 1021 } = ({ State.reset with pc := 1021 }, false) ∧
    stepReg { State.reset with pc := 1020 } 0x00500093 1 = (5, 1024, true) := by decide

/-- SSQ8: `load_program` writes memory and the pc but not `fault`. -/
theorem test_load_keeps_fault :
    (match loadProgram { State.reset with fault := some (.memOutOfRange 0x3FD), pc := 8 } [0x93, 0x00, 0x50, 0x00] with
     | .next t => t.fault == some (.memOutOfRange 0x3FD) && t.pc == 0 && t.mem.readByte 2 == 0x50
     | _ => false) = true := by decide

/-- An image of more than MEM_SIZE bytes is refused (R190). -/
theorem test_load_refused :
    (match loadProgram (State.resetWith { Config.testVectors with memSize := 4 }) [1, 2, 3, 4, 5] with
     | .refused .imageTooLarge => true
     | _ => false) = true := by decide

/-- The word placed for the next fetch runs as the first instruction after reset. -/
theorem test_withFetchWord : (stepResult (State.reset.withFetchWord 32 0x00500093)).1.info.mnemonic = some .addi ∧
    readReg (stepResult (State.reset.withFetchWord 32 0x00500093)).1 1 = 5 := by decide

/-- The wired datapath on one step of `lw`. -/
theorem test_datapath : datapathStep (placed (at0x100 .mathematical 0x100 0) 0x0000A183) =
    stepResult (placed (at0x100 .mathematical 0x100 0) 0x0000A183) := by decide

/-! ### The assembler (95, part A) -/

/-- AS2 and AS3: the two forms of `lw` and of `sw`. -/
theorem test_asm_memory_forms : assembleStrings ["lw x3, 0(x1)", "lw x3, x1, 0", "sw x2, 0(x1)", "sw x2, x1, 0"] =
    .ok [0x0000A183, 0x0000A183, 0x0020A023, 0x0020A023] := by decide

/-- AS4 and AS17: a backward label, a comment, a blank line. -/
theorem test_asm_label : assembleStrings ["addi x1, x0, 3", "addi x2, x0, 0", "loop:", "addi x2, x2, 5   # five", "",
    "addi x1, x1, -1", "bne  x1, x0, loop"] = .ok [0x00300093, 0x00000113, 0x00510113, 0xFFF08093, 0xFE009CE3] := by decide

/-- AS6, AS14 and S5: a forward label; `ebreak` ends assembly. -/
theorem test_asm_ebreak_ends : assembleStrings ["beq x0, x0, done", "addi x1, x0, 2", "done:", "ebreak", "bogus x1"] =
    .ok [0x00000463, 0x00200093, 0x00100073] := by decide

/-- AS7 to AS9, AS11, AS12, AS15, AS16: the fatal errors. -/
theorem test_asm_errors :
    assembleStrings ["add x1, x2, x32"] = .error .registerOutOfRange ∧
    assembleStrings ["addi x1, x0, 5", "mul x3, x1, x2"] = .error .unknownMnemonic ∧
    assembleStrings ["addi x1, x0, 2048"] = .error .immediateOutOfRange ∧
    assembleStrings ["beq x1, x2, 7"] = .error .immediateOutOfRange ∧
    assembleStrings ["beq x1, x2, 4096"] = .error .immediateOutOfRange ∧
    assembleStrings ["addi x1, x0, 0x10"] = .error .malformedOperands ∧
    assembleStrings ["add x1, x2"] = .error .malformedOperands := by decide

/-- AS10 and AS13. -/
theorem test_asm_edges : assembleStrings ["addi x1, x0, -2048", "beq x1, x2, 6"] = .ok [0x80000093, 0x00208363] := by decide

theorem test_asm_unreadable : openSource none = .error .unreadableSource := by decide

/-! ### Witnesses: states and operands that meet the hypotheses of each statement, clause by clause -/

/-- A legal state with a word at its pc, for the witnesses. -/
def legal (w : Word) : State := placed (at0x100 .mathematical 0x200 0xDEADBEEF) w

theorem witness_DecodeOfEncodeIsIdentity :
    (Instr.beq 1 2 4094).wf = true ∧ (Instr.sub 31 0 31).wf = true ∧ offsetEven 7 = false := by decide

theorem witness_EncodeOfDecodeIsIdentity :
    decode .exactWord 0xFE209CE3 = .ok (.bne 1 2 (-8)) ∧ Instr.bne 1 2 (-8) ≠ .ebreak ∧
    decode .exactWord 0x00100073 = .ok .ebreak := by decide

theorem witness_OpcodeTableHoldsTheDecoding :
    (∃ r ∈ opcodeTable, r.selects 0x002081B3 = true) ∧ ∀ r ∈ opcodeTable, r.selects 0 = false := by decide

theorem witness_HaltDecodeSelectsEbreak :
    (0x00200073 : Word).extractLsb' 0 7 = 0x73 ∧ decode .exactWord 0x00200073 ≠ .ok .ebreak ∧
    (0x00100073 : Word).extractLsb' 0 7 = 0x73 := by decide

theorem witness_SignExtensionContainerAgrees :
    (12 ≤ 16) ∧ (16 ≤ 16) ∧ sextContainer (0x800#12) = 0xFFFFF800 ∧ sextContainer (0x8000#16) = 0xFFFF8000 := by decide

theorem witness_InfoOfInstructionWord :
    (Instr.sw 2 1 (-4)).wf = true ∧ (Instr.bge 1 2 (-4096)).wf = true := by decide

theorem witness_SllSrlSra_small : (readReg (at0x100 .fault 1 31) 2).toNat < 32 := by decide

theorem witness_SllSrlSra_mathematical : 32 ≤ (readReg (at0x100 .mathematical 1 32) 2).toNat ∧
    (at0x100 .mathematical 1 32).cfg.shiftGe32 = .mathematical := by decide

theorem witness_SllSrlSra_mask5 : 32 ≤ (readReg (at0x100 .mask5 1 32) 2).toNat ∧
    (at0x100 .mask5 1 32).cfg.shiftGe32 = .mask5 := by decide

theorem witness_SllSrlSra_fault : 32 ≤ (readReg (at0x100 .fault 1 0xFFFFFFFF) 2).toNat ∧
    (at0x100 .fault 1 0xFFFFFFFF).cfg.shiftGe32 = .fault := by decide

theorem witness_LwResult_highest_legal :
    (at0x100 .mathematical 1020 7).cfg.Valid ∧
    (effectiveAddress (at0x100 .mathematical 1020 7) 1 0).toNat ≤ (at0x100 .mathematical 1020 7).cfg.memSize - 4 := by decide

theorem witness_LwResult_lowest_illegal :
    (at0x100 .mathematical 1021 7).cfg.Valid ∧
    (effectiveAddress (at0x100 .mathematical 1021 7) 1 0).toNat > (at0x100 .mathematical 1021 7).cfg.memSize - 4 := by decide

theorem witness_SwResult_highest_legal :
    (at0x100 .mathematical 1020 7).cfg.Valid ∧
    (effectiveAddress (at0x100 .mathematical 1020 7) 1 0).toNat ≤ (at0x100 .mathematical 1020 7).cfg.memSize - 4 := by decide

theorem witness_SwResult_lowest_illegal :
    (at0x100 .mathematical 1021 7).cfg.Valid ∧
    (effectiveAddress (at0x100 .mathematical 1021 7) 1 0).toNat > (at0x100 .mathematical 1021 7).cfg.memSize - 4 := by decide

theorem witness_EbreakResult :
    (legal 0x00100073).running = true ∧
    decode (legal 0x00100073).cfg.haltDecode (fetch (legal 0x00100073)) = .ok .ebreak := by decide

theorem witness_RegisterZeroIsWritable :
    readReg State.reset 0 = 0 ∧ (31 : RegId) ≠ 0 := by decide

theorem witness_StoreThenLoadReturnsValue :
    (legal 0).cfg.Valid ∧ (effectiveAddress (legal 0) 1 0).toNat ≤ (legal 0).cfg.memSize - 4 := by decide

theorem witness_AccessPrimitives :
    State.reset.cfg.Valid ∧ (1020 : Word).toNat ≤ State.reset.cfg.memSize - 4 ∧
    (1021 : Word).toNat > State.reset.cfg.memSize - 4 := by decide

theorem witness_CanonicalMemoryIsExtensional :
    Memory.wf [(3, 1), (1023, 255)] ∧ Memory.wf [] := by decide

/-- `sw x2, 4(x1)` at 0x100 with `x1 = 0x100` and the halt word in `x2`. -/
def storesNext : State := placed (at0x100 .mathematical 0x100 0x00100073) 0x0020A223

theorem witness_StoreIsSeenByNextFetch : storesNext.running = true ∧
    decode storesNext.cfg.haltDecode (fetch storesNext) = .ok (.sw 2 1 4) ∧
    effectiveAddress storesNext 1 4 = storesNext.pc + 4 ∧ storesNext.inMem (storesNext.pc + 4) = true ∧
    decode storesNext.cfg.haltDecode (readReg storesNext 2) = .ok .ebreak := by decide

/-- The state after one step. -/
def after (s : State) : State := (stepResult s).1

theorem witness_OnlyStoreWritesMemory : (after storesNext).mem.readByte 0x104 ≠ storesNext.mem.readByte 0x104 ∧
    (match step storesNext with
     | .next t => t == after storesNext
     | _ => false) = true := by decide

theorem witness_StepRunsDecodedInstruction : (legal 0x0000A183).running = true ∧
    decode (legal 0x0000A183).cfg.haltDecode (fetch (legal 0x0000A183)) = .ok (.lw 3 1 0) ∧
    (match exec (.lw 3 1 0) (legal 0x0000A183) with
     | .next t => t.fault == none
     | _ => false) = true := by decide

theorem witness_UnrecognizedWordIsNoOp :
    (legal 0).running = true ∧ decode (legal 0).cfg.haltDecode (fetch (legal 0)) = .error .unknownOpcode ∧
    (legal 0x0020A1B3).running = true ∧
    decode (legal 0x0020A1B3).cfg.haltDecode (fetch (legal 0x0020A1B3)) = .error (.unknownSelector .R) := by decide

theorem witness_GuardedStepChangesNothing : State.reset.cfg.Valid ∧
    ({ State.reset with halt := true } : State).halt = true ∧
    ({ State.reset with pc := 1021 } : State).pc.toNat > ({ State.reset with pc := 1021 } : State).cfg.memSize - 4 ∧
    ({ State.reset with fault := some .shiftOutOfRange } : State).fault ≠ none := by decide

theorem witness_StepProgressesUnlessGuardedOrFaulted : (legal 0).cfg.Valid ∧ (stepResult (legal 0)).2 = true := by decide

/-- `lw x1, 1021(x0)` at 0x100. -/
def faulting : State := placed (at0x100 .fault 1 32) 0x3FD02083

theorem witness_FaultingStepChangesOnlyFault : faulting.fault = none ∧
    (match step faulting with
     | .next t => t.fault == some (.memOutOfRange 0x3FD)
     | _ => false) = true := by decide

theorem witness_FaultKindsByRaiser : faulting.cfg.Valid ∧ faulting.fault = none ∧
    (match exec (.lw 1 0 1021) faulting with
     | .next t => t.fault == some (.memOutOfRange 0x3FD)
     | _ => false) = true ∧
    (match exec (.sll 3 1 2) faulting with
     | .next t => t.fault == some .shiftOutOfRange
     | _ => false) = true := by decide

/-- A step that is guarded, one that faults, one of an instruction, one of an unrecognized word. -/
theorem witness_SequencerNextPc : ({ faulting with halt := true } : State).running = false ∧
    (faulting.running = true ∧ (after faulting).fault ≠ none) ∧
    ((legal 0x00208463).running = true ∧ (after (legal 0x00208463)).fault = none ∧
      decode .canonical (fetch (legal 0x00208463)) = .ok (.beq 1 2 8)) ∧
    ((legal 0).running = true ∧ (after (legal 0)).fault = none ∧
      decode .canonical (fetch (legal 0)) = .error .unknownOpcode) ∧
    (match step (legal 0x00208463) with
     | .next t => t == after (legal 0x00208463)
     | _ => false) = true := by decide

theorem witness_AtMostOneRegisterWritten : (5 : RegId) ≠ rdOf (fetch (legal 0x002081B3)) ∧
    decode .canonical (fetch (legal 0x0020A023)) = .ok (.sw 2 1 0) ∧
    Mnemonic.sw ∈ [Mnemonic.sw, .beq, .bne, .blt, .bge, .ebreak] ∧
    decode .canonical (fetch (legal 0)) = .error .unknownOpcode ∧
    (match step (legal 0x002081B3) with
     | .next t => t == after (legal 0x002081B3)
     | _ => false) = true := by decide

theorem witness_InfoRecomputedOnProgress : stepResult (legal 0) = (after (legal 0), true) ∧
    stepResult faulting = (after faulting, false) := by decide

theorem witness_RunStatesPartition : State.reset.cfg.Valid ∧ runState State.reset = .running ∧
    runState { State.reset with halt := true } = .halted ∧ runState { State.reset with pc := 1021 } = .halted ∧
    runState { State.reset with fault := some .shiftOutOfRange, halt := true } = .faulted := by decide

theorem witness_HaltSetByEbreakClearedByReset :
    ((legal 0x00100073).halt = false ∧ (legal 0x00100073).running = true ∧
      decode (legal 0x00100073).cfg.haltDecode (fetch (legal 0x00100073)) = .ok .ebreak ∧
      (after (legal 0x00100073)).halt = true) ∧
    (({ State.reset with halt := true } : State).halt = true ∧ (hostReset { State.reset with halt := true }).halt = false) ∧
    (match hostCall .step (legal 0x00100073) with
     | .next t => t == after (legal 0x00100073)
     | _ => false) = true ∧
    (match hostCall (.loadProgram [1]) { State.reset with halt := true } with
     | .next t => t.halt
     | _ => false) = true := by decide

theorem witness_FaultIsTerminalUntilReset : (after faulting).fault ≠ none ∧
    (match hostCall (.loadProgram []) (after faulting) with
     | .next _ => true
     | _ => false) = true ∧
    (match hostCall .reset (after faulting) with
     | .next t => t.fault == none
     | _ => false) = true := by decide

theorem witness_ConfigurationNeverChanges :
    (match hostCall .reset State.reset with
     | .next t => t == State.reset
     | _ => false) = true := by decide

theorem witness_ResetLeavesZeroedState : hostReset State.reset = State.reset ∧ State.reset.cfg.Valid := by decide

theorem witness_LoadProgramEffect : State.reset.cfg.loadBase.toNat + [(1 : Byte), 2].length ≤ State.reset.cfg.memSize ∧
    (0 < [(1 : Byte), 2].length) ∧ State.reset.cfg.loadBase.toNat + [(1 : Byte), 2].length ≤ 2 ∧ State.reset.cfg.Valid ∧
    (match loadProgram (hostReset State.reset) [1, 2] with
     | .next t => runState t == .running
     | _ => false) = true := by decide

/-- An image base above 0, so that an address below the image exists. -/
theorem witness_LoadProgramEffect_below :
    0 < (State.resetWith { Config.testVectors with loadBase := 8 }).cfg.loadBase.toNat ∧
    (State.resetWith { Config.testVectors with loadBase := 8 }).cfg.loadBase.toNat + [(1 : Byte)].length ≤
      (State.resetWith { Config.testVectors with loadBase := 8 }).cfg.memSize := by decide

theorem witness_OversizeImageIsRefused :
    (State.resetWith { Config.testVectors with memSize := 4 }).cfg.memSize <
      (State.resetWith { Config.testVectors with memSize := 4 }).cfg.loadBase.toNat + [(1 : Byte), 2, 3, 4, 5].length := by decide

theorem witness_LoadedWordsAreFetched :
    (match loadProgram State.reset (programImage [0x00500093, 0x00100073]) with
     | .next t => t.mem.readWord 4 == 0x00100073
     | _ => false) = true ∧ 1 < [(0x00500093 : Word), 0x00100073].length := by decide

theorem witness_BootWalksZeroMemory : ({ Config.testVectors with memSize := 16 } : Config).Valid ∧ 4 * 4 ≤ 16 := by decide

theorem witness_RunEndsInOneOfThreeStates : State.reset.cfg.Valid ∧
    run 1 { State.reset with halt := true } = ({ State.reset with halt := true }, true) ∧
    (run 1 { State.reset with pc := 1024 }).2 = true ∧ (run 1 faulting).2 = true := by decide

/-- Clause by clause, `bge` also at equality; x1 = 0x200 and x2 = 0xDEADBEEF. -/
theorem witness_SelfBranchNeverEnds :
    ((legal 0x00000063).running = true ∧
      decode (legal 0x00000063).cfg.haltDecode (fetch (legal 0x00000063)) = .ok (.beq 0 0 0) ∧
      readReg (legal 0x00000063) 0 = readReg (legal 0x00000063) 0) ∧
    ((legal 0x00209063).running = true ∧
      decode (legal 0x00209063).cfg.haltDecode (fetch (legal 0x00209063)) = .ok (.bne 1 2 0) ∧
      readReg (legal 0x00209063) 1 ≠ readReg (legal 0x00209063) 2) ∧
    ((legal 0x0020C063).running = true ∧
      decode (legal 0x0020C063).cfg.haltDecode (fetch (legal 0x0020C063)) = .ok (.blt 1 2 0) ∧
      (readReg (legal 0x0020C063) 1).toNat < (readReg (legal 0x0020C063) 2).toNat) ∧
    ((legal 0x00115063).running = true ∧
      decode (legal 0x00115063).cfg.haltDecode (fetch (legal 0x00115063)) = .ok (.bge 2 1 0) ∧
      (readReg (legal 0x00115063) 1).toNat ≤ (readReg (legal 0x00115063) 2).toNat) ∧
    (decode (legal 0x00005063).cfg.haltDecode (fetch (legal 0x00005063)) = .ok (.bge 0 0 0) ∧
      (readReg (legal 0x00005063) 0).toNat ≤ (readReg (legal 0x00005063) 0).toNat) := by decide

theorem witness_ViewCallsShowState : 1023 < State.reset.cfg.memSize := by decide

theorem witness_InvariantHoldsAtReset : ({ Config.testVectors with memSize := 4 } : Config).Valid := by decide

theorem witness_StepKeepsInvariant : storesNext.Inv ∧
    (match step storesNext with
     | .next t => t == after storesNext
     | _ => false) = true := by decide

theorem witness_ResetAndLoadKeepInvariant : storesNext.Inv ∧
    (match loadProgram storesNext [1, 0, 3] with
     | .next _ => true
     | _ => false) = true := by decide

theorem witness_PlacedWordIsFetched : State.reset.running = true := by decide

/-- The opened source of `addi x1, x0, 5` and `ebreak`. -/
def smallSource : Source :=
  { lines := ["addi x1, x0, 5".toList, "ebreak".toList]
    program := ["addi x1, x0, 5".toList, "ebreak".toList], labels := [] }

theorem witness_AssembledWordsAreInstructions : assemble smallSource = .ok [0x00500093, 0x00100073] := by decide

theorem witness_EbreakEndsAssembly : mnemonicToken "ebreak x1".toList = "ebreak".toList ∧
    assemble smallSource = .ok [0x00500093, 0x00100073] ∧ [(0x00500093 : Word), 0x00100073][1]? = some 0x00100073 := by decide

theorem witness_ImmediateRangeChecks : checkImm12 (-2048) = .ok 0x800 ∧ checkImm12 2048 = .error .immediateOutOfRange ∧
    checkOffset (-4096) = .ok 0x1000 ∧ checkOffset 4094 = .ok 0xFFE ∧ checkOffset 4095 = .error .immediateOutOfRange := by decide

theorem witness_LabelBranchLandsOnLabel : lookupLabel [("loop".toList, 2)] "loop".toList = some 2 ∧
    parseImmediate [("loop".toList, 2)] 4 "loop".toList = .ok (-8) ∧ checkOffset (-8) = .ok (-8) := by decide

end Sys2Proof.Tests
end

section
/-! The configuration under each operation of the host, and the statement that none of them writes it (00_scope.md R10,
10_state.md R39). -/

namespace Sys2Proof.Machine

@[simp] theorem stepUnrecognized_cfg (w : Word) (s : State) : (stepUnrecognized w s).cfg = s.cfg := rfl

/-- A load that answers a state had an image that fits, and answers the copied bytes with the pc at LOAD_BASE (R189, R190). -/
theorem loadProgram_eq_next_iff {s t : State} {bytes : List Byte} :
    loadProgram s bytes = .next t ↔ s.cfg.loadBase.toNat + bytes.length ≤ s.cfg.memSize ∧
      t = { s with mem := s.mem.writeBytes s.cfg.loadBase.toNat bytes, pc := s.cfg.loadBase } := by
  by_cases hfit : s.cfg.loadBase.toNat + bytes.length ≤ s.cfg.memSize
  · simp [loadProgram, hfit, eq_comm]
  · simp [loadProgram, hfit]

/-- No step writes the configuration: neither the guard, nor the no-op, nor an instruction with its fault or its info. -/
theorem step_cfg {s t : State} (h : step s = .next t) : t.cfg = s.cfg := by
  obtain ⟨-, rfl⟩ | ⟨-, -, rfl⟩ | ⟨-, i, u, -, hu, ⟨-, rfl⟩ | ⟨-, rfl⟩⟩ := step_cases h
  · rfl
  · exact stepUnrecognized_cfg _ s
  · exact exec_cfg hu
  · exact (setInfo_cfg u _).trans (exec_cfg hu)

theorem loadProgram_cfg {s t : State} {bytes : List Byte} (h : loadProgram s bytes = .next t) : t.cfg = s.cfg := by
  obtain ⟨-, rfl⟩ := loadProgram_eq_next_iff.mp h
  rfl

/-- Settles O42, by cases on the host call. -/
theorem configurationNeverChanges : Obligations.ConfigurationNeverChanges := by
  intro c s t h
  cases c with
  | step => exact step_cfg h
  | reset =>
    obtain rfl : hostReset s = t := Host.Outcome.next.inj h
    exact hostReset_cfg s
  | loadProgram bytes => exact loadProgram_cfg h

end Sys2Proof.Machine
end

section
/-! The invariant of the block's states (10_state.md R32, R36): each named update keeps it, and so do a step, reset and a load. -/

namespace Sys2Proof.Machine

/-! ### Multiples of 4 (R32, R156) -/

/-- The pc arithmetic is modulo 2^32, a multiple of 4, so a sum of multiples of 4 is one even where it wraps. -/
theorem add_toNat_mod_four {a b : Word} (ha : a.toNat % 4 = 0) (hb : b.toNat % 4 = 0) : (a + b).toNat % 4 = 0 := by
  rw [BitVec.toNat_add]
  omega

/-- The model's test of the two low bits is the spec's `imm_b mod 4 = 0` (R156). -/
theorem offsetAligned_eq_decide (off : BitVec 13) : offsetAligned off = decide ((branchOffset off).toNat % 4 = 0) := by
  rw [offsetAligned, beq_eq_decide, decide_eq_decide, ← BitVec.toNat_inj, BitVec.extractLsb'_toNat]
  simp

/-- The pre-compensation of R125 and the PC advance of R124 together add the branch offset. -/
@[simp] theorem advancePc_redirect_pc (s : State) (v : Word) : (advancePc (redirect s v)).pc = s.pc + v := by
  rw [advancePc_pc, redirect_pc, BitVec.sub_add_cancel]

/-! ### Each update keeps the invariant -/

/-- Only the configuration, the memory and the pc count: states that agree in the first two meet the invariant together, if the pc of
the second is a multiple of 4. -/
theorem inv_of_mem_eq {s t : State} (h : s.Inv) (hc : t.cfg = s.cfg) (hm : t.mem = s.mem) (hpc : t.pc.toNat % 4 = 0) :
    t.Inv := by
  obtain ⟨hcfg, hwf, hin, -⟩ := h
  exact ⟨hc ▸ hcfg, hm ▸ hwf, hm ▸ hc ▸ hin, hpc⟩

theorem inv_advancePc {s : State} (h : s.Inv) : (advancePc s).Inv := by
  have ⟨_, _, _, hpc⟩ := h
  exact inv_of_mem_eq h rfl rfl (add_toNat_mod_four hpc (by decide))

theorem inv_writeReg {s : State} (h : s.Inv) (rd : RegId) (v : Word) : (writeReg s rd v).Inv := h

theorem inv_setHalt {s : State} (h : s.Inv) : (setHalt s).Inv := h

theorem inv_raiseFault {s : State} (h : s.Inv) (k : Fault) : (raiseFault s k).Inv := h

theorem inv_setInfo {s : State} (h : s.Inv) (w : Word) : (setInfo s w).Inv := h

/-- A taken branch has an offset that is a multiple of 4 (R156), so it leaves the pc one (R163). -/
theorem inv_takenBranch {s : State} (h : s.Inv) {off : BitVec 13} (ha : offsetAligned off = true) :
    (advancePc (redirect s (branchOffset off))).Inv := by
  rw [offsetAligned_eq_decide, decide_eq_true_eq] at ha
  have ⟨_, _, _, hpc⟩ := h
  refine inv_of_mem_eq h rfl rfl ?_
  rw [advancePc_redirect_pc]
  exact add_toNat_mod_four hpc ha

/-- A word stored inside the array keeps the memory canonical and inside it (R36, R57). -/
theorem inv_storeWord {s : State} (h : s.Inv) {a : Word} (ha : s.inMem a = true) (v : Word) :
    State.Inv { s with mem := s.mem.writeWord a.toNat v } := by
  obtain ⟨hcfg, hwf, hin, hpc⟩ := h
  exact ⟨hcfg, wf_writeWord hwf _ v, within_writeWord hin ((inMem_iff s a).mp ha) v, hpc⟩

/-! ### The step, reset and loads keep it -/

theorem exec_keeps_inv {i : Instr} {s t : State} (h : s.Inv) (he : exec i s = .next t) : t.Inv := by
  cases exec_shape he with
  | write rd v _ ht => exact ht ▸ inv_advancePc (inv_writeReg h rd v)
  | store rs2 rs1 imm _ hm ht => exact ht ▸ inv_advancePc (inv_storeWord h hm _)
  | taken off _ ha ht => exact ht ▸ inv_takenBranch h ha
  | notTaken _ ht => exact ht ▸ inv_advancePc h
  | halt _ ht => exact ht ▸ inv_advancePc (inv_setHalt h)
  | fault k ht => exact ht ▸ inv_raiseFault h k

/-- Settles O52: each end of a step keeps the invariant. -/
theorem stepKeepsInvariant : Obligations.StepKeepsInvariant := by
  intro s t h hs
  obtain ⟨-, rfl⟩ | ⟨-, -, rfl⟩ | ⟨-, i, u, -, hu, ⟨-, rfl⟩ | ⟨-, rfl⟩⟩ := step_cases hs
  · exact h
  · exact inv_setInfo (inv_advancePc h) _
  · exact exec_keeps_inv h hu
  · exact inv_setInfo (exec_keeps_inv h hu) _

theorem inv_resetWith {c : Config} (hc : c.Valid) : (State.resetWith c).Inv :=
  ⟨hc, wf_nil, fun _ h => absurd h List.not_mem_nil, rfl⟩

theorem inv_hostReset {s : State} (h : s.Inv) : (hostReset s).Inv := inv_resetWith h.1

/-- Settles O51: the zeroed memory has no entry and the zeroed pc is 0. -/
theorem invariantHoldsAtReset : Obligations.InvariantHoldsAtReset :=
  ⟨fun _ hc => inv_resetWith hc, inv_resetWith (by decide)⟩

/-- LOAD_BASE is a multiple of 4 (00_scope.md R10), and an image that fits is written inside the array (R189). -/
theorem loadProgram_keeps_inv {s t : State} {bytes : List Byte} (h : s.Inv) (hl : loadProgram s bytes = .next t) : t.Inv := by
  obtain ⟨hfit, rfl⟩ := loadProgram_eq_next_iff.mp hl
  obtain ⟨hcfg, hwf, hin, -⟩ := h
  have ⟨_, _, hbase, _⟩ := hcfg
  exact ⟨hcfg, wf_writeBytes hwf _ bytes, within_writeBytes hin bytes hfit, hbase⟩

/-- Settles O53: reset zeroes the state of a legal configuration, and a load that fits stays inside the array. -/
theorem resetAndLoadKeepInvariant : Obligations.ResetAndLoadKeepInvariant :=
  fun _ _ h => ⟨inv_hostReset h, fun _ hl => loadProgram_keeps_inv h hl⟩

end Sys2Proof.Machine
end

section
/-! The canonical form of memory is unique (10_state.md R36, notes/assumptions/8.md). -/

namespace Sys2Proof.Machine

/-- A byte that does not read as 0 is listed, in any memory. -/
theorem mem_of_readByte_ne_zero {m : Memory} {a : Nat} (h : m.readByte a ≠ 0) : (a, m.readByte a) ∈ m := by
  induction m with
  | nil => exact absurd (readByte_nil a) h
  | cons c m ih =>
    rw [readByte_cons] at h ⊢
    split at h
    · rename_i hc
      rw [if_pos hc, ← hc]
      exact List.mem_cons_self
    · rename_i hc
      rw [if_neg hc]
      exact List.mem_cons_of_mem c (ih h)

/-- With rising addresses no earlier entry hides a listed byte. -/
theorem readByte_of_mem {m : Memory} (hp : m.Pairwise (fun c d => c.1 < d.1)) {c : Host.Cell} (hc : c ∈ m) :
    m.readByte c.1 = c.2 := by
  induction m with
  | nil => exact absurd hc List.not_mem_nil
  | cons d m ih =>
    obtain ⟨hd, hp⟩ := List.pairwise_cons.mp hp
    rw [readByte_cons]
    rcases List.mem_cons.mp hc with rfl | hc
    · exact if_pos rfl
    · rw [if_neg (hd c hc).ne, ih hp hc]

/-- The entries of a canonical memory are the bytes that do not read as 0. -/
theorem mem_iff_readByte {m : Memory} (h : m.wf) {c : Host.Cell} : c ∈ m ↔ c.2 ≠ 0 ∧ m.readByte c.1 = c.2 := by
  constructor
  · exact fun hc => ⟨h.2 c hc, readByte_of_mem h.1 hc⟩
  · rintro ⟨hne, hr⟩
    rw [← hr] at hne
    simpa [hr] using mem_of_readByte_ne_zero hne

/-- Settles O25: the reads fix the entries, and the rising order fixes their places. -/
theorem canonicalMemoryIsExtensional : Obligations.CanonicalMemoryIsExtensional := by
  intro m n hm hn hr
  have hmem : ∀ c, c ∈ m ↔ c ∈ n := fun c => by rw [mem_iff_readByte hm, mem_iff_readByte hn, hr]
  have nodup : ∀ {l : Memory}, l.wf → l.Nodup := fun hl => hl.1.imp fun hlt e => (e ▸ hlt).false
  exact ((List.perm_ext_iff_of_nodup (nodup hm) (nodup hn)).mpr hmem).eq_of_pairwise
    (fun _ _ _ _ hab hba => (lt_asymm hab hba).elim) hm.1 hn.1

end Sys2Proof.Machine
end

section
/-! What a step leaves unchanged: the frame of memory (20_memory.md R57), of the registers (10_state.md R28) and of the halt flag
(10_state.md R33). -/

namespace Sys2Proof.Machine

/-! ### The no-op of an unrecognized word (40_sequencer.md R129) -/

@[simp] theorem stepUnrecognized_x (w : Word) (s : State) : (stepUnrecognized w s).x = s.x := rfl
@[simp] theorem stepUnrecognized_mem (w : Word) (s : State) : (stepUnrecognized w s).mem = s.mem := rfl
@[simp] theorem stepUnrecognized_halt (w : Word) (s : State) : (stepUnrecognized w s).halt = s.halt := rfl
@[simp] theorem stepUnrecognized_fault (w : Word) (s : State) : (stepUnrecognized w s).fault = s.fault := rfl

/-- A step as far as its frame goes: registers, memory and halt are those of the state before, or those that the execution of the
decoded instruction leaves. -/
theorem step_frame {s t : State} (h : step s = .next t) :
    (t.x = s.x ∧ t.mem = s.mem ∧ t.halt = s.halt ∧ (∀ i, decode s.cfg.haltDecode (fetch s) = .ok i → s.running = false)) ∨
      ∃ i u, decode s.cfg.haltDecode (fetch s) = .ok i ∧ exec i s = .next u ∧ t.x = u.x ∧ t.mem = u.mem ∧ t.halt = u.halt := by
  obtain ⟨hr, rfl⟩ | ⟨-, ⟨e, he⟩, rfl⟩ | ⟨-, i, u, hd, hu, ⟨-, rfl⟩ | ⟨-, rfl⟩⟩ := step_cases h
  · exact .inl ⟨rfl, rfl, rfl, fun _ _ => hr⟩
  · refine .inl ⟨stepUnrecognized_x _ s, stepUnrecognized_mem _ s, stepUnrecognized_halt _ s, fun i hi => ?_⟩
    exact absurd (hi.symm.trans he) nofun
  · exact .inr ⟨i, t, hd, hu, rfl, rfl, rfl⟩
  · exact .inr ⟨i, u, hd, hu, rfl, rfl, rfl⟩

/-! ### Memory -/

/-- Execution leaves the memory, or stores a word as `sw`. -/
theorem exec_mem {i : Instr} {s t : State} (h : exec i s = .next t) :
    t.mem = s.mem ∨ ∃ rs2 rs1 imm, i = .sw rs2 rs1 imm ∧
      t.mem = s.mem.writeWord (effectiveAddress s rs1 imm).toNat (readReg s rs2) := by
  cases exec_shape h with
  | write rd v _ ht => exact .inl (by rw [ht]; rfl)
  | store rs2 rs1 imm hi _ ht => exact .inr ⟨rs2, rs1, imm, hi, by rw [ht]; rfl⟩
  | taken off _ _ ht => exact .inl (by rw [ht]; rfl)
  | notTaken _ ht => exact .inl (by rw [ht]; rfl)
  | halt _ ht => exact .inl (by rw [ht]; rfl)
  | fault k ht => exact .inl (by rw [ht]; rfl)

/-- Settles O27: a step with another memory executed `sw`, and the word write reaches the four bytes at its EA only. -/
theorem onlyStoreWritesMemory : Obligations.OnlyStoreWritesMemory := by
  intro s t a hs hne
  obtain ⟨-, hm, -, -⟩ | ⟨i, u, hd, hu, -, hm, -⟩ := step_frame hs
  · exact absurd (by rw [hm]) hne
  · obtain hsame | ⟨rs2, rs1, imm, rfl, hw⟩ := exec_mem hu
    · exact absurd (by rw [hm, hsame]) hne
    · refine ⟨rs2, rs1, imm, hd, ?_⟩
      by_contra hout
      exact hne (by rw [hm, hw, readByte_writeWord, if_neg hout])

/-! ### What the decoder answers -/

/-- What the decoder accepts: a recognized mnemonic with the operand fields of the word. -/
theorem decode_eq_ok_iff {h : HaltDecode} {w : Word} {i : Instr} :
    decode h w = .ok i ↔ ∃ m, decodeOp h w = some m ∧ operandsOf w m = i := by
  cases hm : decodeOp h w with
  | some m => simp [decode, hm]
  | none => by_cases hf : formatOf w = .NONE <;> simp [decode, hm, hf]

/-- The decoder rejects a word that selects no mnemonic. -/
theorem decode_error_of_decodeOp_none {h : HaltDecode} {w : Word} (hop : decodeOp h w = none) : ∃ e, decode h w = .error e := by
  cases hd : decode h w with
  | error e => exact ⟨e, rfl⟩
  | ok i =>
    obtain ⟨m, hm, -⟩ := decode_eq_ok_iff.mp hd
    exact absurd (hop.symm.trans hm) nofun

/-! ### Registers -/

/-- The register that a decoded instruction writes is the `rd` field of its word (R28, R79). -/
theorem dest_of_decode {h : HaltDecode} {w : Word} {i : Instr} {rd : RegId} (hd : decode h w = .ok i)
    (hi : i.dest = some rd) : rd = rdOf w := by
  obtain ⟨m, -, rfl⟩ := decode_eq_ok_iff.mp hd
  cases m <;> cases hi <;> rfl

/-- The store, the branches and the halt have no destination. -/
theorem dest_eq_none {i : Instr} (h : i.mnemonic ∈ [Mnemonic.sw, .beq, .bne, .blt, .bge, .ebreak]) : i.dest = none := by
  cases i <;> simp_all [Instr.mnemonic, Instr.dest]

/-- Execution leaves every register that is not the destination. -/
theorem exec_readReg {i : Instr} {s t : State} (h : exec i s = .next t) {r : RegId} (hr : i.dest ≠ some r) :
    readReg t r = readReg s r := by
  cases exec_shape h with
  | write rd v hd ht =>
    have hne : r ≠ rd := fun e => hr (e ▸ hd)
    rw [ht, readReg_advancePc, readReg_writeReg_ne s rd r v hne]
  | store rs2 rs1 imm _ _ ht => rw [ht]; rfl
  | taken off _ _ ht => rw [ht, readReg_advancePc, readReg_redirect]
  | notTaken _ ht => rw [ht, readReg_advancePc]
  | halt _ ht => rw [ht, readReg_advancePc, readReg_setHalt]
  | fault k ht => rw [ht, readReg_raiseFault]

/-- A step leaves every register that is not the destination of the instruction it decodes. -/
theorem step_readReg {s t : State} (h : step s = .next t) {r : RegId}
    (hr : ∀ i, decode s.cfg.haltDecode (fetch s) = .ok i → i.dest ≠ some r) : readReg t r = readReg s r := by
  obtain ⟨hx, -⟩ | ⟨i, u, hd, hu, hx, -⟩ := step_frame h
  · exact readReg_congr hx r
  · rw [readReg_congr hx r, exec_readReg hu (hr i hd)]

/-- Settles O35: the destination of what a word decodes to is its `rd` field, and the instructions listed have none. -/
theorem atMostOneRegisterWritten : Obligations.AtMostOneRegisterWritten := by
  intro s t hs
  refine ⟨fun r hr => step_readReg hs fun i hd hi => hr (dest_of_decode hd hi), fun i hd hm r => ?_, fun e he r => ?_⟩
  · refine step_readReg hs fun j hj => ?_
    obtain rfl : i = j := Except.ok.inj (hd.symm.trans hj)
    rw [dest_eq_none hm]
    exact nofun
  · refine step_readReg hs fun j hj => ?_
    rw [he] at hj
    cases hj

/-! ### The halt flag -/

theorem exec_ebreak (s : State) : exec .ebreak s = .next (advancePc (setHalt s)) := rfl

/-- Only `ebreak` writes the halt flag (R33). -/
theorem exec_halt {i : Instr} {s t : State} (h : exec i s = .next t) (hi : i ≠ .ebreak) : t.halt = s.halt := by
  cases exec_shape h with
  | write rd v _ ht => rw [ht]; rfl
  | store rs2 rs1 imm _ _ ht => rw [ht]; rfl
  | taken off _ _ ht => rw [ht]; rfl
  | notTaken _ ht => rw [ht]; rfl
  | halt hb _ => exact absurd hb hi
  | fault k ht => rw [ht]; rfl

/-- A step that decodes no `ebreak` leaves the halt flag. -/
theorem step_halt {s t : State} (h : step s = .next t) (hd : decode s.cfg.haltDecode (fetch s) ≠ .ok .ebreak) :
    t.halt = s.halt := by
  obtain ⟨-, -, hh, -⟩ | ⟨i, u, hi, hu, -, -, hh⟩ := step_frame h
  · exact hh
  · exact hh.trans (exec_halt hu fun e => hd (e ▸ hi))

/-- A step from Running that decodes `ebreak` sets the halt flag (45_system.md R169). -/
theorem step_ebreak_halt {s t : State} (h : step s = .next t) (hr : s.running = true)
    (hd : decode s.cfg.haltDecode (fetch s) = .ok .ebreak) : t.halt = true := by
  obtain ⟨-, -, -, hn⟩ | ⟨i, u, hi, hu, -, -, hh⟩ := step_frame h
  · exact absurd (hr.symm.trans (hn _ hd)) nofun
  · obtain rfl : .ebreak = i := Except.ok.inj (hd.symm.trans hi)
    obtain rfl := Host.Outcome.next.inj hu
    exact hh

theorem stepResult_of_not_running {s : State} (h : s.running = false) : stepResult s = (s, false) := by
  simp [stepResult, step_of_not_running h, h]

theorem not_running_of_halt {s : State} (h : s.halt = true) : s.running = false := by simp [State.running, h]

theorem loadProgram_halt {s t : State} {bytes : List Byte} (h : loadProgram s bytes = .next t) : t.halt = s.halt := by
  obtain ⟨-, rfl⟩ := loadProgram_eq_next_iff.mp h
  rfl

/-- The flag rises only in a step that decodes `ebreak`. -/
theorem hostCall_halt_rises {c : HostCall} {s t : State} (h : hostCall c s = .next t) (hs : s.halt = false)
    (ht : t.halt = true) : c = .step ∧ decode s.cfg.haltDecode (fetch s) = .ok .ebreak := by
  cases c with
  | step =>
    refine ⟨rfl, ?_⟩
    by_contra hd
    exact absurd (hs.symm.trans ((step_halt h hd).symm.trans ht)) nofun
  | reset =>
    obtain rfl : hostReset s = t := Host.Outcome.next.inj h
    exact absurd ht nofun
  | loadProgram bytes => exact absurd (hs.symm.trans ((loadProgram_halt h).symm.trans ht)) nofun

/-- The flag falls only in a reset. -/
theorem hostCall_halt_falls {c : HostCall} {s t : State} (h : hostCall c s = .next t) (hs : s.halt = true)
    (ht : t.halt = false) : c = .reset := by
  cases c with
  | step =>
    obtain rfl : s = t := Host.Outcome.next.inj ((step_of_not_running (not_running_of_halt hs)).symm.trans h)
    exact absurd (hs.symm.trans ht) nofun
  | reset => rfl
  | loadProgram bytes => exact absurd (hs.symm.trans ((loadProgram_halt h).symm.trans ht)) nofun

/-- Settles O40, by the host call that moves the flag. -/
theorem haltSetByEbreakClearedByReset : Obligations.HaltSetByEbreakClearedByReset := by
  intro c s t h
  refine ⟨hostCall_halt_rises h, hostCall_halt_falls h, ?_, ?_, fun hs => stepResult_of_not_running (not_running_of_halt hs)⟩
  · rintro rfl
    exact step_ebreak_halt h
  · rintro bytes rfl
    exact loadProgram_halt h

/-! ### Register 0 (10_state.md R27) -/

theorem exec_addi (rd rs1 : RegId) (imm : BitVec 12) (s : State) :
    exec (.addi rd rs1 imm) s = .next (advancePc (writeReg s rd (readReg s rs1 + immOperand imm))) := rfl

theorem exec_add (rd rs1 rs2 : RegId) (s : State) :
    exec (.add rd rs1 rs2) s = .next (advancePc (writeReg s rd (readReg s rs1 + readReg s rs2))) := rfl

/-- Settles O21: register 0 is written and read like the others. -/
theorem registerZeroIsWritable : Obligations.RegisterZeroIsWritable := by
  refine ⟨fun s v => ⟨readReg_writeReg_same s 0 v, fun r hr => readReg_writeReg_ne s 0 r v hr⟩, fun s h0 => ?_⟩
  have h9 : readReg (advancePc (writeReg s 0 (readReg s 0 + immOperand 9))) 0 = 9 := by
    rw [readReg_advancePc, readReg_writeReg_same, h0]
    decide
  refine ⟨_, _, exec_addi 0 0 9 s, h9, exec_add 4 0 0 _, ?_⟩
  rw [readReg_advancePc, readReg_writeReg_same, h9]
  decide

end Sys2Proof.Machine
end

section
/-! The wired sub-blocks against the step (10_state.md R41 to R46, 40_sequencer.md R126): what each of the two leaves, by the kind of
the instruction. -/

namespace Sys2Proof.Machine

/-! ### The step's Boolean and state, by what execution makes of the state -/

/-- An execution that raises no fault: the pc advances, the info is recorded, the step progressed (R124, R127, R128). -/
theorem stepResult_of_ok {s u : State} {i : Instr} (hr : s.running = true) (hd : decode s.cfg.haltDecode (fetch s) = .ok i)
    (he : exec i s = endExecute s (.ok u)) (hu : u.fault = s.fault) :
    stepResult s = (setInfo (advancePc u) (fetch s), true) := by
  obtain ⟨-, hf, -⟩ := (running_iff s).mp hr
  simp [stepResult, step, hr, hd, he, hu, hf]

/-- An execution that raises a fault: the fault is all that changes (R134). -/
theorem stepResult_of_error {s : State} {i : Instr} {k : Fault} (hr : s.running = true)
    (hd : decode s.cfg.haltDecode (fetch s) = .ok i) (he : exec i s = endExecute s (.error k)) :
    stepResult s = (raiseFault s k, false) := by
  simp [stepResult, step, hr, hd, he]

/-- An unrecognized word progresses as the no-op of R129, R130. -/
theorem stepResult_of_decode_error {s : State} {e : DecodeError} (hr : s.running = true)
    (hd : decode s.cfg.haltDecode (fetch s) = .error e) : stepResult s = (stepUnrecognized (fetch s) s, true) := by
  obtain ⟨-, hf, -⟩ := (running_iff s).mp hr
  simp [stepResult, step_of_decode_error hr hd, hr, hf]

/-! ### The ports in terms of the named operations -/

@[simp] theorem readWord_pc (s : State) : s.mem.readWord s.pc.toNat = fetch s := rfl
@[simp] theorem readPort_x (s : State) (r : RegId) : readPort s.x r = readReg s r := rfl
@[simp] theorem dataInRange_memSize (s : State) (a : Word) : dataInRange s.cfg.memSize a = s.inMem a := rfl

/-- `fetch_enable` of R45 is the guard of R120. -/
@[simp] theorem sequencerEnable_eq_running (s : State) : sequencerEnable s.pc s.halt s.fault s.cfg.memSize = s.running := by
  simp [sequencerEnable, State.running, State.inMem, Bool.and_comm]

/-! The rows of R126: the guard, a raised fault, the next word, a branch. -/

theorem sequencerPort_of_guarded {i : SequencerIn} (h : sequencerEnable i.pc i.halt i.fault i.memSize = false) :
    sequencerPort i = { fetchEnable := false, pcNext := i.pc, progressed := false } := by
  simp [sequencerPort, h]

theorem sequencerPort_of_raised {i : SequencerIn} (h : sequencerEnable i.pc i.halt i.fault i.memSize = true)
    (hr : i.raised = true) : sequencerPort i = { fetchEnable := true, pcNext := i.pc, progressed := false } := by
  simp [sequencerPort, h, hr]

theorem sequencerPort_of_not_branch {i : SequencerIn} (h : sequencerEnable i.pc i.halt i.fault i.memSize = true)
    (hr : i.raised = false) (hb : i.isBranch = false) :
    sequencerPort i = { fetchEnable := true, pcNext := i.pc + 4, progressed := true } := by
  simp [sequencerPort, h, hr, hb]

theorem sequencerPort_of_branch {i : SequencerIn} (h : sequencerEnable i.pc i.halt i.fault i.memSize = true)
    (hr : i.raised = false) (hb : i.isBranch = true) :
    sequencerPort i =
      { fetchEnable := true
        pcNext := if i.cmp && decide (i.immB.toNat % 4 = 0) then i.pc + i.immB else i.pc + 4
        progressed := true } := by
  simp only [sequencerPort, h, hr, hb, Bool.not_true, Bool.false_eq_true, if_false, Bool.true_and, Bool.not_false, Bool.and_self]

theorem aluPort_of_ok {g : ShiftGe32} {op : AluOp} {a b v : Word} (h : alu g op a b = .ok v) :
    aluPort g op a b = { y := some v, shiftFault := false } := by
  simp [aluPort, h]

theorem aluPort_of_error {g : ShiftGe32} {op : AluOp} {a b : Word} {k : Fault} (h : alu g op a b = .error k) :
    aluPort g op a b = { y := none, shiftFault := true } := by
  simp [aluPort, h]

/-! ### The datapath and the step agree, by what the control asks for -/

theorem datapathStep_of_not_running {s : State} (h : s.running = false) : datapathStep s = (s, false) := by
  simp [datapathStep, sequencerPort_of_guarded, h]

section
variable {s : State} {i : Instr} (hr : s.running = true) (hd : decode s.cfg.haltDecode (fetch s) = .ok i)
include hr

theorem datapath_unrecognized {e : DecodeError} (hop : decodeOp s.cfg.haltDecode (fetch s) = none)
    (he : decode s.cfg.haltDecode (fetch s) = .error e) : datapathStep s = stepResult s := by
  rw [stepResult_of_decode_error hr he]
  simp [datapathStep, decoderPort, hop, control, Control.idle, sequencerPort_of_not_branch, hr, writePort, stepUnrecognized, setInfo, advancePc]

include hd

/-- A register or an immediate instruction: `imm` says which second operand the ALU takes. -/
theorem datapath_alu {op : AluOp} {imm : Bool}
    (hc : control (decodeOp s.cfg.haltDecode (fetch s)) = { Control.idle with aluOp := some op, aluImm := imm, we := true })
    (he : exec i s = endExecute s (writeResult s (rdOf (fetch s)) (alu s.cfg.shiftGe32 op (readReg s (rs1Of (fetch s)))
      (if imm then immI (fetch s) else readReg s (rs2Of (fetch s)))))) : datapathStep s = stepResult s := by
  obtain ⟨v, hv⟩ | ⟨-, -, -, hv⟩ := alu_cases s.cfg.shiftGe32 op (readReg s (rs1Of (fetch s)))
    (if imm then immI (fetch s) else readReg s (rs2Of (fetch s)))
  · rw [stepResult_of_ok hr hd (u := writeReg s (rdOf (fetch s)) v) (by rw [he, hv]; rfl) rfl]
    simp [datapathStep, decoderPort, hc, Control.idle, aluPort_of_ok hv, sequencerPort_of_not_branch, hr, writePort, setInfo, advancePc]
  · rw [stepResult_of_error hr hd (k := .shiftOutOfRange) (by rw [he, hv]; rfl)]
    simp [datapathStep, decoderPort, hc, Control.idle, aluPort_of_error hv, sequencerPort_of_raised, hr, raiseFault]

theorem datapath_load (hc : control (decodeOp s.cfg.haltDecode (fetch s)) = { Control.idle with load := true, we := true })
    (he : exec i s = endExecute s (writeResult s (rdOf (fetch s)) (memRead s (readReg s (rs1Of (fetch s)) + immI (fetch s))))) :
    datapathStep s = stepResult s := by
  obtain ⟨hm, hv⟩ | ⟨hm, hv⟩ := memRead_cases s (readReg s (rs1Of (fetch s)) + immI (fetch s))
  · rw [hv] at he
    rw [stepResult_of_ok hr hd he rfl]
    simp [datapathStep, decoderPort, hc, Control.idle, hm, sequencerPort_of_not_branch, hr, writePort, setInfo, advancePc]
  · rw [hv] at he
    rw [stepResult_of_error hr hd he]
    simp [datapathStep, decoderPort, hc, Control.idle, hm, sequencerPort_of_raised, hr, raiseFault]

theorem datapath_store (hc : control (decodeOp s.cfg.haltDecode (fetch s)) = { Control.idle with store := true })
    (he : exec i s = endExecute s (memWrite s (readReg s (rs1Of (fetch s)) + immS (fetch s)) (readReg s (rs2Of (fetch s))))) :
    datapathStep s = stepResult s := by
  obtain ⟨hm, hv⟩ | ⟨hm, hv⟩ := memWrite_cases s (readReg s (rs1Of (fetch s)) + immS (fetch s)) (readReg s (rs2Of (fetch s)))
  · rw [hv] at he
    rw [stepResult_of_ok hr hd he rfl]
    simp [datapathStep, decoderPort, hc, Control.idle, hm, sequencerPort_of_not_branch, hr, writePort, setInfo, advancePc]
  · rw [hv] at he
    rw [stepResult_of_error hr hd he]
    simp [datapathStep, decoderPort, hc, Control.idle, hm, sequencerPort_of_raised, hr, raiseFault]

/-- A branch: the net effect of the sequencer is the pre-compensation and the PC advance together (R125, R126). -/
theorem datapath_branch {c : Cond} (hc : control (decodeOp s.cfg.haltDecode (fetch s)) = { Control.idle with cond := some c })
    (he : exec i s = execBranch c (rs1Of (fetch s)) (rs2Of (fetch s)) (immBField (fetch s)) s) :
    datapathStep s = stepResult s := by
  have hal : offsetAligned (immBField (fetch s)) = decide ((immB (fetch s)).toNat % 4 = 0) := offsetAligned_eq_decide _
  cases ht : branchTaken c (readReg s (rs1Of (fetch s))) (readReg s (rs2Of (fetch s))) (immBField (fetch s)) with
  | true =>
    rw [stepResult_of_ok hr hd (u := redirect s (immB (fetch s))) (by rw [he, execBranch, ht]; rfl) rfl]
    rw [branchTaken, hal] at ht
    simp [datapathStep, decoderPort, hc, Control.idle, ht, sequencerPort_of_branch, hr, writePort, setInfo, advancePc, redirect]
  | false =>
    rw [stepResult_of_ok hr hd (u := s) (by rw [he, execBranch, ht]; rfl) rfl]
    rw [branchTaken, hal] at ht
    simp [datapathStep, decoderPort, hc, Control.idle, ht, sequencerPort_of_branch, hr, writePort, setInfo, advancePc]

theorem datapath_halt (hc : control (decodeOp s.cfg.haltDecode (fetch s)) = { Control.idle with halt := true })
    (he : exec i s = endExecute s (.ok (setHalt s))) : datapathStep s = stepResult s := by
  rw [stepResult_of_ok hr hd he rfl]
  simp [datapathStep, decoderPort, hc, Control.idle, sequencerPort_of_not_branch, hr, writePort, setInfo, advancePc, setHalt]

end

/-- A recognized word: the control signals of each mnemonic ask for what its execution does. -/
theorem datapath_recognized {s : State} {m : Mnemonic} (hr : s.running = true)
    (hop : decodeOp s.cfg.haltDecode (fetch s) = some m) : datapathStep s = stepResult s := by
  have hd : decode s.cfg.haltDecode (fetch s) = .ok (operandsOf (fetch s) m) := decode_eq_ok_iff.mpr ⟨m, hop, rfl⟩
  have hc : control (decodeOp s.cfg.haltDecode (fetch s)) = control (some m) := by rw [hop]
  cases m with
  | add => exact datapath_alu hr hd (op := .ADD) (imm := false) hc rfl
  | sub => exact datapath_alu hr hd (op := .SUB) (imm := false) hc rfl
  | xor => exact datapath_alu hr hd (op := .XOR) (imm := false) hc rfl
  | or => exact datapath_alu hr hd (op := .OR) (imm := false) hc rfl
  | and => exact datapath_alu hr hd (op := .AND) (imm := false) hc rfl
  | sll => exact datapath_alu hr hd (op := .SLL) (imm := false) hc rfl
  | srl => exact datapath_alu hr hd (op := .SRL) (imm := false) hc rfl
  | sra => exact datapath_alu hr hd (op := .SRA) (imm := false) hc rfl
  | addi => exact datapath_alu hr hd (op := .ADD) (imm := true) hc rfl
  | xori => exact datapath_alu hr hd (op := .XOR) (imm := true) hc rfl
  | ori => exact datapath_alu hr hd (op := .OR) (imm := true) hc rfl
  | andi => exact datapath_alu hr hd (op := .AND) (imm := true) hc rfl
  | lw => exact datapath_load hr hd hc rfl
  | sw => exact datapath_store hr hd hc rfl
  | beq => exact datapath_branch hr hd (c := .EQ) hc rfl
  | bne => exact datapath_branch hr hd (c := .NE) hc rfl
  | blt => exact datapath_branch hr hd (c := .LTU) hc rfl
  | bge => exact datapath_branch hr hd (c := .GEU) hc rfl
  | ebreak => exact datapath_halt hr hd hc rfl

/-- Settles O54, by the guard and by what the word selects. -/
theorem datapathRefinesStep : Obligations.DatapathRefinesStep := by
  intro s
  cases hr : s.running with
  | false => rw [datapathStep_of_not_running hr, stepResult_of_not_running hr]
  | true =>
    cases hop : decodeOp s.cfg.haltDecode (fetch s) with
    | none =>
      obtain ⟨e, he⟩ := decode_error_of_decodeOp_none hop
      exact datapath_unrecognized hr hop he
    | some m => exact datapath_recognized hr hop

/-! ### No wire leaves the info (10_state.md R37) -/

/-- The state with another info record. -/
def withInfo (s : State) (j : Info) : State := { s with info := j }

/-- The datapath's Boolean is the sequencer's, which takes no info. -/
theorem datapathStep_withInfo_snd (s : State) (j : Info) : (datapathStep (withInfo s j)).2 = (datapathStep s).2 := by
  simp only [datapathStep, apply_ite Prod.snd]
  rfl

/-- No port takes the info: the state held, the one that faults and the one that progresses each keep or replace it. -/
theorem datapathStep_withInfo_fst (s : State) (j k : Info) :
    withInfo (datapathStep (withInfo s j)).1 k = withInfo (datapathStep s).1 k := by
  simp only [datapathStep, apply_ite Prod.fst, apply_ite (withInfo · k)]
  rfl

/-- Settles O37: the step is the datapath, and no wire of it leaves the info. -/
theorem infoIsNeverRead : Obligations.InfoIsNeverRead := by
  intro s j
  rw [← datapathRefinesStep, ← datapathRefinesStep]
  exact ⟨datapathStep_withInfo_snd s j, datapathStep_withInfo_fst s j s.info⟩

end Sys2Proof.Machine
end

section
/-! The encoded words: their fields, the mnemonic they select and their info record (30_encoding.md R86 to R96, 10_state.md R37). -/

namespace Sys2Proof

/-! ### The fields of a row's word -/

section
variable (m : Mnemonic) (rd rs1 rs2 : RegId)

@[simp] theorem opcodeOf_encodeRow : opcodeOf (encodeRow m rd rs1 rs2) = m.opcode := by simp [encodeRow]
@[simp] theorem rdOf_encodeRow : rdOf (encodeRow m rd rs1 rs2) = rd := by simp [encodeRow]
@[simp] theorem funct3Of_encodeRow : funct3Of (encodeRow m rd rs1 rs2) = m.funct3 := by simp [encodeRow]
@[simp] theorem rs1Of_encodeRow : rs1Of (encodeRow m rd rs1 rs2) = rs1 := by simp [encodeRow]
@[simp] theorem rs2Of_encodeRow : rs2Of (encodeRow m rd rs1 rs2) = rs2 := by simp [encodeRow]
@[simp] theorem funct7Of_encodeRow : funct7Of (encodeRow m rd rs1 rs2) = m.funct7 := by simp [encodeRow]

variable (imm : BitVec 12)

@[simp] theorem opcodeOf_encodeRowI : opcodeOf (encodeRowI m rd rs1 imm) = m.opcode := by simp [encodeRowI]
@[simp] theorem rdOf_encodeRowI : rdOf (encodeRowI m rd rs1 imm) = rd := by simp [encodeRowI]
@[simp] theorem funct3Of_encodeRowI : funct3Of (encodeRowI m rd rs1 imm) = m.funct3 := by simp [encodeRowI]
@[simp] theorem rs1Of_encodeRowI : rs1Of (encodeRowI m rd rs1 imm) = rs1 := by simp [encodeRowI]
@[simp] theorem immIField_encodeRowI : immIField (encodeRowI m rd rs1 imm) = imm := by simp [encodeRowI, setWidth_sext32]

@[simp] theorem opcodeOf_encodeRowS : opcodeOf (encodeRowS m rs2 rs1 imm) = m.opcode := by simp [encodeRowS]
@[simp] theorem funct3Of_encodeRowS : funct3Of (encodeRowS m rs2 rs1 imm) = m.funct3 := by simp [encodeRowS]
@[simp] theorem rs1Of_encodeRowS : rs1Of (encodeRowS m rs2 rs1 imm) = rs1 := by simp [encodeRowS]
@[simp] theorem rs2Of_encodeRowS : rs2Of (encodeRowS m rs2 rs1 imm) = rs2 := by simp [encodeRowS]
@[simp] theorem immSField_encodeRowS : immSField (encodeRowS m rs2 rs1 imm) = imm := by simp [encodeRowS, setWidth_sext32]

variable (off : BitVec 13)

@[simp] theorem opcodeOf_encodeRowB : opcodeOf (encodeRowB m rs1 rs2 off) = m.opcode := by simp [encodeRowB]
@[simp] theorem funct3Of_encodeRowB : funct3Of (encodeRowB m rs1 rs2 off) = m.funct3 := by simp [encodeRowB]
@[simp] theorem rs1Of_encodeRowB : rs1Of (encodeRowB m rs1 rs2 off) = rs1 := by simp [encodeRowB]
@[simp] theorem rs2Of_encodeRowB : rs2Of (encodeRowB m rs1 rs2 off) = rs2 := by simp [encodeRowB]

/-- Bit 0 of the offset is not encoded (R85, R90). -/
@[simp] theorem immBField_encodeRowB : immBField (encodeRowB m rs1 rs2 off) = off &&& 8190#13 := by
  simp [encodeRowB, setWidth_sext32]

end

/-! ### What the fields select -/

/-- The opcode column of R106 fixes the format column (R91, R92). -/
theorem formatOf_of_opcode {w : Word} {m : Mnemonic} (ho : opcodeOf w = m.opcode) : formatOf w = m.format := by
  cases m <;> simp only [formatOf, ho] <;> rfl

/-- An R-format row is selected by its opcode, funct3 and funct7 (R94). -/
theorem decodeOp_of_R {w : Word} {m : Mnemonic} (h : HaltDecode) (hm : m.format = .R) (ho : opcodeOf w = m.opcode)
    (h3 : funct3Of w = m.funct3) (h7 : funct7Of w = m.funct7) : decodeOp h w = some m := by
  cases m <;> cases hm <;> simp only [decodeOp, ho, h3, h7] <;> rfl

/-- Any other row but the halt is selected by its opcode and funct3 (R95). -/
theorem decodeOp_of_not_R {w : Word} {m : Mnemonic} (h : HaltDecode) (hm : m.format ≠ .R) (hb : m ≠ .ebreak)
    (ho : opcodeOf w = m.opcode) (h3 : funct3Of w = m.funct3) : decodeOp h w = some m := by
  cases m with
  | addi | xori | ori | andi | lw | sw | beq | bne | blt | bge => simp only [decodeOp, ho, h3]; rfl
  | add | sub | xor | or | and | sll | srl | sra => exact absurd rfl hm
  | ebreak => exact absurd rfl hb

end Sys2Proof

namespace Sys2Proof.Machine

/-! ### The info record of a row's word: the fields of its format, 0 for the others -/

section
variable {m : Mnemonic} (h : HaltDecode) (rd rs1 rs2 : RegId) (imm : BitVec 12) {off : BitVec 13}

theorem infoOf_encodeRow (hm : m.format = .R) : infoOf h (encodeRow m rd rs1 rs2) =
    { format := .R, mnemonic := some m, rd := rd, rs1 := rs1, rs2 := rs2, imm := 0, unrecognized := false } := by
  have hf : formatOf (encodeRow m rd rs1 rs2) = .R := hm ▸ formatOf_of_opcode (by simp)
  have hop : decodeOp h (encodeRow m rd rs1 rs2) = some m := decodeOp_of_R h hm (by simp) (by simp) (by simp)
  simp [infoOf, hf, hop]

theorem infoOf_encodeRowI (hm : m.format = .I) (hb : m ≠ .ebreak) : infoOf h (encodeRowI m rd rs1 imm) =
    { format := .I, mnemonic := some m, rd := rd, rs1 := rs1, rs2 := 0, imm := sext32 imm, unrecognized := false } := by
  have hf : formatOf (encodeRowI m rd rs1 imm) = .I := hm ▸ formatOf_of_opcode (by simp)
  have hop : decodeOp h (encodeRowI m rd rs1 imm) = some m := decodeOp_of_not_R h (by simp [hm]) hb (by simp) (by simp)
  simp [infoOf, hf, hop, immI]

theorem infoOf_encodeRowS (hm : m.format = .S) : infoOf h (encodeRowS m rs2 rs1 imm) =
    { format := .S, mnemonic := some m, rd := 0, rs1 := rs1, rs2 := rs2, imm := sext32 imm, unrecognized := false } := by
  have hb : m ≠ .ebreak := by rintro rfl; cases hm
  have hf : formatOf (encodeRowS m rs2 rs1 imm) = .S := hm ▸ formatOf_of_opcode (by simp)
  have hop : decodeOp h (encodeRowS m rs2 rs1 imm) = some m := decodeOp_of_not_R h (by simp [hm]) hb (by simp) (by simp)
  simp [infoOf, hf, hop, immS]

theorem infoOf_encodeRowB (hm : m.format = .B) (he : offsetEven off = true) : infoOf h (encodeRowB m rs1 rs2 off) =
    { format := .B, mnemonic := some m, rd := 0, rs1 := rs1, rs2 := rs2, imm := sext32 off, unrecognized := false } := by
  have hb : m ≠ .ebreak := by rintro rfl; cases hm
  have hf : formatOf (encodeRowB m rs1 rs2 off) = .B := hm ▸ formatOf_of_opcode (by simp)
  have hop : decodeOp h (encodeRowB m rs1 rs2 off) = some m := decodeOp_of_not_R h (by simp [hm]) hb (by simp) (by simp)
  simp [infoOf, hf, hop, immB, even_offset_kept he]

/-- The halt word is the halt under every setting of HALT_DECODE, with the I fields it has (R93, R116). -/
theorem infoOf_encode_ebreak : infoOf h (encode .ebreak) =
    { format := .I, mnemonic := some .ebreak, rd := 0, rs1 := 0, rs2 := 0, imm := 1, unrecognized := false } := by
  cases h <;> decide

end

/-- Settles O9, by the format of the instruction. -/
theorem infoOfInstructionWord : Obligations.InfoOfInstructionWord := by
  intro h i hwf
  cases i with
  | add rd rs1 rs2 | sub rd rs1 rs2 | xor rd rs1 rs2 | or rd rs1 rs2 | and rd rs1 rs2 | sll rd rs1 rs2 | srl rd rs1 rs2
  | sra rd rs1 rs2 =>
    rw [encode, infoOf_encodeRow h rd rs1 rs2 rfl]
    exact ⟨rfl, rfl, rfl, rfl, rfl, rfl, rfl⟩
  | addi rd rs1 imm | xori rd rs1 imm | ori rd rs1 imm | andi rd rs1 imm | lw rd rs1 imm =>
    rw [encode, infoOf_encodeRowI h rd rs1 imm rfl]
    · exact ⟨rfl, rfl, rfl, rfl, rfl, rfl, rfl⟩
    · decide
  | sw rs2 rs1 imm =>
    rw [encode, infoOf_encodeRowS h rs1 rs2 imm rfl]
    exact ⟨rfl, rfl, rfl, rfl, rfl, rfl, rfl⟩
  | beq rs1 rs2 off | bne rs1 rs2 off | blt rs1 rs2 off | bge rs1 rs2 off =>
    rw [encode, infoOf_encodeRowB h rs1 rs2 rfl hwf]
    exact ⟨rfl, rfl, rfl, rfl, rfl, rfl, rfl⟩
  | ebreak =>
    rw [infoOf_encode_ebreak]
    exact ⟨rfl, rfl, rfl, rfl, rfl, rfl, rfl⟩

end Sys2Proof.Machine
end

section
/-! The accesses of memory (20_memory.md): a word and its four bytes, a word read after a word write (R56, R57, R63), the placed word
(R54, R58), and a store over the next instruction (R70). -/

namespace Sys2Proof.Machine

/-! ### A word and its four bytes (R53) -/

theorem byteOf_wordOfBytes (b0 b1 b2 b3 : Byte) :
    byteOf (wordOfBytes b0 b1 b2 b3) 0 = b0 ∧ byteOf (wordOfBytes b0 b1 b2 b3) 1 = b1 ∧
      byteOf (wordOfBytes b0 b1 b2 b3) 2 = b2 ∧ byteOf (wordOfBytes b0 b1 b2 b3) 3 = b3 := by
  unfold wordOfBytes byteOf
  refine ⟨BitVec.extractLsb'_append_eq_right, ?_, ?_, ?_⟩
  · rw [BitVec.extractLsb'_append_eq_of_le (by decide)]
    exact BitVec.extractLsb'_append_eq_right
  · rw [BitVec.extractLsb'_append_eq_of_le (by decide), BitVec.extractLsb'_append_eq_of_le (by decide)]
    exact BitVec.extractLsb'_append_eq_right
  · rw [BitVec.extractLsb'_append_eq_of_le (by decide), BitVec.extractLsb'_append_eq_of_le (by decide)]
    exact BitVec.extractLsb'_append_eq_left

/-- Neighbouring bytes of a word join to a longer slice of it, and all four to the word. -/
@[simp] theorem wordOfBytes_byteOf (v : Word) : wordOfBytes (byteOf v 0) (byteOf v 1) (byteOf v 2) (byteOf v 3) = v := by
  unfold wordOfBytes byteOf
  iterate 3 rw [BitVec.extractLsb'_append_extractLsb'_eq_extractLsb' (by decide)]
  exact BitVec.extractLsb'_eq_self

/-- Byte `k` of a word read is the byte at the `k`-th address (R56). -/
theorem byteOf_readWord (m : Memory) (a : Nat) {k : Nat} (hk : k < 4) : byteOf (m.readWord a) k = m.readByte (a + k) := by
  obtain ⟨h0, h1, h2, h3⟩ := byteOf_wordOfBytes (m.readByte a) (m.readByte (a + 1)) (m.readByte (a + 2)) (m.readByte (a + 3))
  interval_cases k
  · exact h0
  · exact h1
  · exact h2
  · exact h3

/-! ### Reads after a word write (R57, R63) -/

/-- A word write leaves byte `k` of the word at the `k`-th address (R57). -/
theorem readByte_writeWord_add (m : Memory) (a : Nat) (v : Word) {k : Nat} (hk : k < 4) :
    (m.writeWord a v).readByte (a + k) = byteOf v k := by
  rw [readByte_writeWord, if_pos (by omega), Nat.add_sub_cancel_left]

theorem readWord_writeWord_same (m : Memory) (a : Nat) (v : Word) : (m.writeWord a v).readWord a = v := by
  simp [Memory.readWord, readByte_writeWord]

/-- A word read across two neighbouring word writes takes two bytes of each, whatever was there before. -/
theorem readWord_across_writeWords (m : Memory) (a : Nat) (v w : Word) :
    ((m.writeWord a v).writeWord (a + 4) w).readWord (a + 2) =
      wordOfBytes (byteOf v 2) (byteOf v 3) (byteOf w 0) (byteOf w 1) := by
  simp [Memory.readWord, readByte_writeWord, Nat.add_assoc]

/-- Settles O24: byte `k` of the word read is the byte at `b + k`; the example is a read across two neighbouring writes. -/
theorem overlappingWordsShareBytes : Obligations.OverlappingWordsShareBytes := by
  constructor
  · intro m a b k v hk
    exact (byteOf_readWord (m.writeWord a v) b hk).trans (readByte_writeWord m a (b + k) v)
  · intro m
    exact (readWord_across_writeWords m 256 0x11223344 0x55667788).trans (by decide)

/-- Settles O23: the bound of R56, R57 is `inMem`, and the bytes after the write are those of the word write. -/
theorem accessPrimitives : Obligations.AccessPrimitives := by
  intro s a v hcfg
  constructor
  · intro hle
    have hin : s.inMem a = true := (inMem_iff_of_valid hcfg a).mpr hle
    have hbyte {k : Nat} (hk : k < 4) := readByte_writeWord_add s.mem a.toNat v hk
    refine ⟨memRead_of_inMem hin, _, memWrite_of_inMem hin v, hbyte (k := 0) (by decide), hbyte (by decide), hbyte (by decide),
      hbyte (by decide), fun b hb => ?_, fun _ => rfl, rfl, rfl, rfl, rfl, rfl⟩
    rw [readByte_writeWord, if_neg (by omega)]
  · intro hgt
    have hout : s.inMem a = false := by
      rw [← Bool.not_eq_true, inMem_iff_of_valid hcfg]
      omega
    exact ⟨memRead_of_not_inMem hout, memWrite_of_not_inMem hout v⟩

/-! ### The placed word (R54, R58) -/

theorem withFetchWord_of_inMem {s : State} (h : s.inMem s.pc = true) (nbits w : Nat) :
    s.withFetchWord nbits w = { s with mem := s.mem.writeWord s.pc.toNat (tableWord nbits w) } := if_pos h

/-- Settles O55: a Running state has its pc in range, so the word is written there, and nothing but memory changes. -/
theorem placedWordIsFetched : Obligations.PlacedWordIsFetched := by
  intro s nbits w hr
  obtain ⟨-, -, hpc⟩ := (running_iff s).mp hr
  rw [withFetchWord_of_inMem hpc]
  exact ⟨hr, readWord_writeWord_same s.mem s.pc.toNat (tableWord nbits w), fun _ => rfl, rfl, rfl, rfl, rfl⟩

/-! ### A store over the next instruction (R70) -/

/-- From Running, a step executes what the fetched word decodes to, and records its info (40_sequencer.md R121 to R123, R128). -/
theorem step_of_decode_ok {s : State} {w : Word} {i : Instr} (hr : s.running = true) (hw : fetch s = w)
    (hd : decode s.cfg.haltDecode w = .ok i) : step s = recordInfo w (exec i s) := by
  simp [step, hr, hw, hd]

/-- A store in range writes its word and advances the pc (44_load_store.md R166). -/
theorem exec_sw_of_inMem {s : State} {rs1 : RegId} {imm : BitVec 12} (h : s.inMem (effectiveAddress s rs1 imm) = true)
    (rs2 : RegId) : exec (.sw rs2 rs1 imm) s =
      .next (advancePc { s with mem := s.mem.writeWord (effectiveAddress s rs1 imm).toNat (readReg s rs2) }) := by
  rw [exec, execSw, memWrite_of_inMem h, endExecute_ok]

/-- The fetch after a store at pc + 4 and the PC advance is the stored word (R58, 40_sequencer.md R124). -/
theorem fetch_advancePc_writeWord_next (s : State) (v : Word) :
    fetch (advancePc { s with mem := s.mem.writeWord (s.pc + 4).toNat v }) = v :=
  readWord_writeWord_same s.mem (s.pc + 4).toNat v

/-- Settles O26: the store's step answers a state whose pc is the EA, and neither the PC advance nor the info touches memory. -/
theorem storeIsSeenByNextFetch : Obligations.StoreIsSeenByNextFetch := by
  intro rs2 rs1 imm s hr hd hea hin
  obtain ⟨hhalt, hfault, -⟩ := (running_iff s).mp hr
  have hexec := exec_sw_of_inMem (hea.symm ▸ hin) rs2
  rw [hea] at hexec
  have hstep := step_of_decode_ok hr rfl hd
  rw [hexec, recordInfo_next, if_neg (by simp [hfault])] at hstep
  have hfetch := fetch_advancePc_writeWord_next s (readReg s rs2)
  refine ⟨_, hstep, ?run, hfetch, fun i hi => step_of_decode_ok ?run hfetch hi⟩
  exact (running_iff _).mpr ⟨hhalt, hfault, hin⟩

end Sys2Proof.Machine
end

section
/-! Decoding an encoded instruction (30_encoding.md R90). -/

namespace Sys2Proof

/-- The word of an instruction selects the instruction's mnemonic, under every setting of HALT_DECODE. -/
theorem decodeOp_encode (h : HaltDecode) (i : Instr) : decodeOp h (encode i) = some i.mnemonic := by
  cases i with
  | add rd rs1 rs2 | sub rd rs1 rs2 | xor rd rs1 rs2 | or rd rs1 rs2 | and rd rs1 rs2 | sll rd rs1 rs2 | srl rd rs1 rs2
  | sra rd rs1 rs2 =>
    exact decodeOp_of_R h rfl (opcodeOf_encodeRow _ rd rs1 rs2) (funct3Of_encodeRow _ rd rs1 rs2) (funct7Of_encodeRow _ rd rs1 rs2)
  | addi rd rs1 imm | xori rd rs1 imm | ori rd rs1 imm | andi rd rs1 imm | lw rd rs1 imm =>
    exact decodeOp_of_not_R h nofun nofun (opcodeOf_encodeRowI _ rd rs1 imm) (funct3Of_encodeRowI _ rd rs1 imm)
  | sw rs2 rs1 imm =>
    exact decodeOp_of_not_R h nofun nofun (opcodeOf_encodeRowS _ rs1 rs2 imm) (funct3Of_encodeRowS _ rs1 rs2 imm)
  | beq rs1 rs2 off | bne rs1 rs2 off | blt rs1 rs2 off | bge rs1 rs2 off =>
    exact decodeOp_of_not_R h nofun nofun (opcodeOf_encodeRowB _ rs1 rs2 off) (funct3Of_encodeRowB _ rs1 rs2 off)
  | ebreak => cases h <;> decide

/-- The operand fields of a well-formed instruction's word are its operands. -/
theorem operandsOf_encode {i : Instr} (hwf : i.wf = true) : operandsOf (encode i) i.mnemonic = i := by
  cases i with
  | add rd rs1 rs2 | sub rd rs1 rs2 | xor rd rs1 rs2 | or rd rs1 rs2 | and rd rs1 rs2 | sll rd rs1 rs2 | srl rd rs1 rs2
  | sra rd rs1 rs2 | addi rd rs1 imm | xori rd rs1 imm | ori rd rs1 imm | andi rd rs1 imm | lw rd rs1 imm | sw rs2 rs1 imm =>
    simp [encode, Instr.mnemonic, operandsOf]
  | beq rs1 rs2 off | bne rs1 rs2 off | blt rs1 rs2 off | bge rs1 rs2 off =>
    simp [encode, Instr.mnemonic, operandsOf, even_offset_kept hwf]
  | ebreak => rfl

/-- An odd offset is its even part with bit 0 set, so dropping that bit lowers it by 1. -/
theorem odd_offset_lowered {off : BitVec 13} (h : offsetEven off = false) : off &&& 8190#13 = off - 1 := by
  have h0 : off.getLsbD 0 = true := by simpa [offsetEven] using h
  rw [eq_sub_iff_add_eq, BitVec.add_eq_or_of_and_eq_zero]
  · apply BitVec.eq_of_getLsbD_eq
    intro i hi
    interval_cases i <;> simp_all
  · rw [BitVec.and_assoc]
    exact BitVec.and_zero

theorem decode_encode (h : HaltDecode) (i : Instr) : decode h (encode i) = .ok (operandsOf (encode i) i.mnemonic) :=
  Machine.decode_eq_ok_iff.mpr ⟨i.mnemonic, decodeOp_encode h i, rfl⟩

theorem decode_encode_of_wf (h : HaltDecode) {i : Instr} (hwf : i.wf = true) : decode h (encode i) = .ok i := by
  rw [decode_encode, operandsOf_encode hwf]

/-- Settles O1: the word selects the mnemonic, and its fields are the operands, bit 0 of a branch offset cleared. -/
theorem decodeOfEncodeIsIdentity : Obligations.DecodeOfEncodeIsIdentity := by
  refine ⟨fun h i hwf => decode_encode_of_wf h hwf, fun h a b off hodd => ?_⟩
  simp only [decode_encode]
  simp [encode, Instr.mnemonic, operandsOf, odd_offset_lowered hodd]

end Sys2Proof
end

section
/-! A word by its fields (30_encoding.md R72 to R80), what the decoder selects as equations of fields (R91 to R96), and the three
statements that compare the two: the encoder inverts the decoder, the table rows, the rejected words. -/

namespace Sys2Proof

/-! ### A word is its fields -/

/-- A word is the row of its six R-format fields (R72). -/
theorem word_eq_append_fields (w : Word) :
    w = funct7Of w ++ rs2Of w ++ rs1Of w ++ funct3Of w ++ rdOf w ++ opcodeOf w := by
  unfold funct7Of rs2Of rs1Of funct3Of rdOf opcodeOf
  iterate 5 rw [BitVec.extractLsb'_append_extractLsb'_eq_extractLsb' (by decide)]
  exact BitVec.extractLsb'_eq_self.symm

theorem word_eq_iff_fields {v w : Word} : v = w ↔ opcodeOf v = opcodeOf w ∧ rdOf v = rdOf w ∧ funct3Of v = funct3Of w ∧
    rs1Of v = rs1Of w ∧ rs2Of v = rs2Of w ∧ funct7Of v = funct7Of w := by
  refine ⟨fun h => by simp [h], fun ⟨ho, hd, h3, h1, h2, h7⟩ => ?_⟩
  rw [word_eq_append_fields v, word_eq_append_fields w, ho, hd, h3, h1, h2, h7]

theorem append_eq_append {m n : Nat} {a a' : BitVec m} {b b' : BitVec n} (h : a ++ b = a' ++ b') : a = a' ∧ b = b' := by
  have hl := congrArg (BitVec.extractLsb' n m) h
  have hr := congrArg (BitVec.extractLsb' 0 n) h
  rw [BitVec.extractLsb'_append_eq_left, BitVec.extractLsb'_append_eq_left] at hl
  rw [BitVec.extractLsb'_append_eq_right, BitVec.extractLsb'_append_eq_right] at hr
  exact ⟨hl, hr⟩

/-- The I field is the fields `funct7` and `rs2` of the R format (R72, R73). -/
theorem immIField_eq_append (w : Word) : immIField w = funct7Of w ++ rs2Of w :=
  (BitVec.extractLsb'_append_extractLsb'_eq_extractLsb' (len₂ := 7) (len₁ := 5) rfl).symm

theorem fields_of_immIField {v w : Word} (h : immIField v = immIField w) : rs2Of v = rs2Of w ∧ funct7Of v = funct7Of w := by
  rw [immIField_eq_append, immIField_eq_append] at h
  exact (append_eq_append h).symm

/-- The S field is the fields `funct7` and `rd` of the R format (R72, R74). -/
theorem fields_of_immSField {v w : Word} (h : immSField v = immSField w) : rdOf v = rdOf w ∧ funct7Of v = funct7Of w :=
  (append_eq_append h).symm

/-- The B field holds the fields `funct7` and `rd` of the R format, in four pieces (R72, R75). -/
theorem fields_of_immBField {v w : Word} (h : immBField v = immBField w) : rdOf v = rdOf w ∧ funct7Of v = funct7Of w := by
  obtain ⟨h, -⟩ := append_eq_append h
  obtain ⟨h, h8⟩ := append_eq_append h
  obtain ⟨h, h25⟩ := append_eq_append h
  obtain ⟨h31, h7⟩ := append_eq_append h
  have hrd (u : Word) : rdOf u = u.extractLsb' 8 4 ++ u.extractLsb' 7 1 :=
    (BitVec.extractLsb'_append_extractLsb'_eq_extractLsb' (len₂ := 4) (len₁ := 1) rfl).symm
  have hf7 (u : Word) : funct7Of u = u.extractLsb' 31 1 ++ u.extractLsb' 25 6 :=
    (BitVec.extractLsb'_append_extractLsb'_eq_extractLsb' (len₂ := 1) (len₁ := 6) rfl).symm
  rw [hrd, hrd, hf7, hf7, h8, h7, h31, h25]
  exact ⟨rfl, rfl⟩

/-! ### The word that the fields of a word encode to -/

section
variable {m : Mnemonic} {w : Word} (ho : opcodeOf w = m.opcode) (h3 : funct3Of w = m.funct3)
include ho h3

theorem encodeRow_fields (h7 : funct7Of w = m.funct7) : encodeRow m (rdOf w) (rs1Of w) (rs2Of w) = w := by
  simp [word_eq_iff_fields, ho, h3, h7]

theorem encodeRowI_fields : encodeRowI m (rdOf w) (rs1Of w) (immIField w) = w := by
  obtain ⟨h2, h7⟩ := fields_of_immIField (immIField_encodeRowI m (rdOf w) (rs1Of w) (immIField w))
  simp [word_eq_iff_fields, ho, h3, h2, h7]

theorem encodeRowS_fields : encodeRowS m (rs2Of w) (rs1Of w) (immSField w) = w := by
  obtain ⟨hd, h7⟩ := fields_of_immSField (immSField_encodeRowS m (rs1Of w) (rs2Of w) (immSField w))
  simp [word_eq_iff_fields, ho, h3, hd, h7]

theorem encodeRowB_fields : encodeRowB m (rs1Of w) (rs2Of w) (immBField w) = w := by
  have hoff := immBField_encodeRowB m (rs1Of w) (rs2Of w) (immBField w)
  rw [even_offset_kept (offsetEven_immBField w)] at hoff
  obtain ⟨hd, h7⟩ := fields_of_immBField hoff
  simp [word_eq_iff_fields, ho, h3, hd, h7]

end

/-! ### The fields that select a mnemonic (R93 to R95) -/

theorem fields_of_decodeRegister {f3 : BitVec 3} {f7 : BitVec 7} {m : Mnemonic} (h : decodeRegister f3 f7 = some m) :
    m.opcode = 0x33 ∧ f3 = m.funct3 ∧ f7 = m.funct7 := by
  unfold decodeRegister at h
  split_ifs at h <;> cases h <;> exact ⟨rfl, ‹_›⟩

theorem fields_of_decodeImmediate {f3 : BitVec 3} {m : Mnemonic} (h : decodeImmediate f3 = some m) :
    m.opcode = 0x13 ∧ f3 = m.funct3 := by
  unfold decodeImmediate at h
  split_ifs at h <;> cases h <;> exact ⟨rfl, ‹_›⟩

theorem fields_of_decodeBranch {f3 : BitVec 3} {m : Mnemonic} (h : decodeBranch f3 = some m) :
    m.opcode = 0x63 ∧ f3 = m.funct3 := by
  unfold decodeBranch at h
  split_ifs at h <;> cases h <;> exact ⟨rfl, ‹_›⟩

theorem decodeLoad_eq_some_iff {f3 : BitVec 3} {m : Mnemonic} : decodeLoad f3 = some m ↔ f3 = 0b010 ∧ .lw = m := by
  simp [decodeLoad]

theorem decodeStore_eq_some_iff {f3 : BitVec 3} {m : Mnemonic} : decodeStore f3 = some m ↔ f3 = 0b010 ∧ .sw = m := by
  simp [decodeStore]

theorem eq_ebreak_iff_opcode {m : Mnemonic} : m = .ebreak ↔ m.opcode = 0x73 := by cases m <;> decide
theorem format_eq_R_iff_opcode {m : Mnemonic} : m.format = .R ↔ m.opcode = 0x33 := by cases m <;> decide

/-- The halt is selected by its opcode and the setting (R93). -/
theorem decodeOp_of_opcode_0x73 {w : Word} (h : HaltDecode) (ho : opcodeOf w = 0x73) :
    decodeOp h w = if isHaltWord h w then some .ebreak else none := by
  simp [decodeOp, ho]

/-- A mnemonic is selected by its row of R106: the opcode and the selectors its format has; the halt by R93. -/
theorem decodeOp_eq_some_iff {h : HaltDecode} {w : Word} {m : Mnemonic} : decodeOp h w = some m ↔
    opcodeOf w = m.opcode ∧ (m ≠ .ebreak → funct3Of w = m.funct3) ∧ (m.format = .R → funct7Of w = m.funct7) ∧
      (m = .ebreak → isHaltWord h w = true) := by
  constructor
  · intro hop
    rw [Ne, eq_ebreak_iff_opcode, format_eq_R_iff_opcode]
    unfold decodeOp at hop
    split_ifs at hop with ho ho ho ho hw ho ho
    · obtain ⟨hm, h3, h7⟩ := fields_of_decodeRegister hop
      simp [ho, hm, h3, h7]
    · obtain ⟨hm, h3⟩ := fields_of_decodeImmediate hop
      simp [ho, hm, h3]
    · obtain ⟨h3, rfl⟩ := decodeLoad_eq_some_iff.mp hop
      simp [ho, h3, Mnemonic.opcode, Mnemonic.funct3]
    · obtain rfl := Option.some.inj hop
      simp [ho, hw, Mnemonic.opcode]
    · obtain ⟨h3, rfl⟩ := decodeStore_eq_some_iff.mp hop
      simp [ho, h3, Mnemonic.opcode, Mnemonic.funct3]
    · obtain ⟨hm, h3⟩ := fields_of_decodeBranch hop
      simp [ho, hm, h3]
  · rintro ⟨ho, h3, h7, hw⟩
    by_cases hb : m = .ebreak
    · subst hb
      rw [decodeOp_of_opcode_0x73 h ho, if_pos (hw rfl)]
    · by_cases hR : m.format = .R
      · exact decodeOp_of_R h hR ho (h3 hb) (h7 hR)
      · exact decodeOp_of_not_R h hR hb ho (h3 hb)

/-! ### Encoding a decoded word (R90) -/

theorem wf_operandsOf (w : Word) (m : Mnemonic) : (operandsOf w m).wf = true := by
  cases m with
  | beq | bne | blt | bge => exact offsetEven_immBField w
  | _ => rfl

theorem encode_operandsOf {h : HaltDecode} {w : Word} {m : Mnemonic} (hop : decodeOp h w = some m) (hb : m ≠ .ebreak) :
    encode (operandsOf w m) = w := by
  obtain ⟨ho, h3, h7, -⟩ := decodeOp_eq_some_iff.mp hop
  cases m with
  | add | sub | xor | or | and | sll | srl | sra => exact encodeRow_fields ho (h3 hb) (h7 rfl)
  | addi | xori | ori | andi | lw => exact encodeRowI_fields ho (h3 hb)
  | sw => exact encodeRowS_fields ho (h3 hb)
  | beq | bne | blt | bge => exact encodeRowB_fields ho (h3 hb)
  | ebreak => exact absurd rfl hb

/-- Settles O2: a decoded word is the row of its fields; the halt's word is fixed under `exactWord` only. -/
theorem encodeOfDecodeIsIdentity : Obligations.EncodeOfDecodeIsIdentity := by
  intro h w i hd
  obtain ⟨m, hop, rfl⟩ := Machine.decode_eq_ok_iff.mp hd
  refine ⟨wf_operandsOf w m, fun hne => encode_operandsOf hop fun hb => hne (by rw [hb]; rfl), ?_⟩
  rintro rfl
  by_cases hb : m = .ebreak
  · subst hb
    obtain ⟨-, -, -, hw⟩ := decodeOp_eq_some_iff.mp hop
    exact (eq_of_beq (hw rfl)).symm
  · exact encode_operandsOf hop hb

/-! ### The rows of the opcode table (R99) -/

/-- The bits a row looks at: opcode, funct3, and the selectors of the R format and of the halt. -/
theorem opcodeTable_mask : ∀ r ∈ opcodeTable,
    opcodeOf r.mask = BitVec.allOnes 7 ∧ rdOf r.mask = 0 ∧ funct3Of r.mask = BitVec.allOnes 3 ∧ rs1Of r.mask = 0 ∧
      rs2Of r.mask = (if r.mnemonic = .ebreak then BitVec.allOnes 5 else 0) ∧
      funct7Of r.mask = (if r.mnemonic.format = .R ∨ r.mnemonic = .ebreak then BitVec.allOnes 7 else 0) := by decide

/-- The bits a row asks for are those of its row of R106, and 1 in bits 31:20 for the halt. -/
theorem opcodeTable_matchValue : ∀ r ∈ opcodeTable,
    opcodeOf r.matchValue = r.mnemonic.opcode ∧ rdOf r.matchValue = 0 ∧ funct3Of r.matchValue = r.mnemonic.funct3 ∧
      rs1Of r.matchValue = 0 ∧ rs2Of r.matchValue = (if r.mnemonic = .ebreak then 1 else 0) ∧
      funct7Of r.matchValue = (if r.mnemonic.format = .R then r.mnemonic.funct7 else 0) := by decide

/-- Every mnemonic has a row. -/
theorem exists_row (m : Mnemonic) : ∃ r ∈ opcodeTable, r.mnemonic = m := by cases m <;> decide

theorem and_eq_iff_fields {w k v : Word} : w &&& k = v ↔
    opcodeOf w &&& opcodeOf k = opcodeOf v ∧ rdOf w &&& rdOf k = rdOf v ∧ funct3Of w &&& funct3Of k = funct3Of v ∧
      rs1Of w &&& rs1Of k = rs1Of v ∧ rs2Of w &&& rs2Of k = rs2Of v ∧ funct7Of w &&& funct7Of k = funct7Of v := by
  simp only [word_eq_iff_fields, opcodeOf, rdOf, funct3Of, rs1Of, rs2Of, funct7Of, BitVec.extractLsb'_and]

/-- The canonical halt asks for the value 1 in bits 31:20, the fields `funct7` and `rs2` (R93). -/
theorem isHaltWord_canonical_iff {w : Word} :
    isHaltWord .canonical w = true ↔ funct3Of w = 0 ∧ rs2Of w = 1 ∧ funct7Of w = 0 := by
  have himm : immIField w = 0x001 ↔ rs2Of w = 1 ∧ funct7Of w = 0 := by
    rw [immIField_eq_append]
    exact ⟨fun h => (append_eq_append (a' := 0#7) (b' := 1#5) h).symm, fun ⟨h2, h7⟩ => by rw [h2, h7]; rfl⟩
  simp only [isHaltWord, Bool.and_eq_true, beq_iff_eq, himm]

/-- A row selects the words whose fields under its mask are its own, and these are the fields that the decoder asks for. -/
theorem selects_iff {r : OpcodeRow} (hr : r ∈ opcodeTable) (w : Word) :
    r.selects w = true ↔ decodeOp .canonical w = some r.mnemonic := by
  obtain ⟨ko, kd, k3, k1, k2, k7⟩ := opcodeTable_mask r hr
  obtain ⟨vo, vd, v3, v1, v2, v7⟩ := opcodeTable_matchValue r hr
  rw [OpcodeRow.selects, beq_iff_eq, and_eq_iff_fields, ko, kd, k3, k1, k2, k7, vo, vd, v3, v1, v2, v7, decodeOp_eq_some_iff]
  by_cases hb : r.mnemonic = .ebreak
  · simp only [hb, if_true, or_true, BitVec.and_allOnes, isHaltWord_canonical_iff]
    simp [Mnemonic.format, Mnemonic.funct3]
  · by_cases hR : r.mnemonic.format = .R
    · simp only [hb, hR, if_true, true_or, BitVec.and_allOnes]
      simp [hb]
    · simp only [hb, hR, if_false, or_self, BitVec.and_allOnes]
      simp [hb]

@[simp] theorem mnemonic_operandsOf (w : Word) (m : Mnemonic) : (operandsOf w m).mnemonic = m := by cases m <;> rfl

theorem exists_decode_eq_ok_iff {h : HaltDecode} {w : Word} {m : Mnemonic} :
    (∃ i, decode h w = .ok i ∧ i.mnemonic = m) ↔ decodeOp h w = some m := by
  simp [Machine.decode_eq_ok_iff]

theorem exists_decode_eq_error_iff {h : HaltDecode} {w : Word} : (∃ e, decode h w = .error e) ↔ decodeOp h w = none := by
  refine ⟨fun ⟨e, he⟩ => ?_, Machine.decode_error_of_decodeOp_none⟩
  by_contra hne
  obtain ⟨m, hm⟩ := Option.ne_none_iff_exists'.mp hne
  exact absurd (he.symm.trans (Machine.decode_eq_ok_iff.mpr ⟨m, hm, rfl⟩)) nofun

/-- Settles O3: a row selects the words of its mnemonic, and every mnemonic has a row. -/
theorem opcodeTableHoldsTheDecoding : Obligations.OpcodeTableHoldsTheDecoding := by
  intro w
  refine ⟨fun r hr => (selects_iff hr w).trans exists_decode_eq_ok_iff.symm, ?_⟩
  rw [exists_decode_eq_error_iff, Option.eq_none_iff_forall_ne_some]
  constructor
  · intro hnone m hm
    obtain ⟨r, hr, rfl⟩ := exists_row m
    exact absurd ((selects_iff hr w).mpr hm) (by simp [hnone r hr])
  · intro hnone r hr
    rw [← Bool.not_eq_true, selects_iff hr]
    exact hnone r.mnemonic

/-! ### The rejected words (R93, R96) -/

theorem decodeRegister_eq_none_iff {f3 : BitVec 3} {f7 : BitVec 7} : decodeRegister f3 f7 = none ↔ (f3, f7) ∉
    ([(0b000, 0b0000000), (0b000, 0b0100000), (0b001, 0b0000000), (0b100, 0b0000000), (0b101, 0b0000000),
      (0b101, 0b0100000), (0b110, 0b0000000), (0b111, 0b0000000)] : List (BitVec 3 × BitVec 7)) := by
  simp [decodeRegister, ite_eq_iff]

theorem decodeImmediate_eq_none_iff {f3 : BitVec 3} :
    decodeImmediate f3 = none ↔ f3 ∉ ([0b000, 0b100, 0b110, 0b111] : List (BitVec 3)) := by
  simp [decodeImmediate, ite_eq_iff]

theorem decodeBranch_eq_none_iff {f3 : BitVec 3} :
    decodeBranch f3 = none ↔ f3 ∉ ([0b000, 0b001, 0b100, 0b101] : List (BitVec 3)) := by
  simp [decodeBranch, ite_eq_iff]

theorem isHaltWord_eq_false_iff {h : HaltDecode} {w : Word} : isHaltWord h w = false ↔
    (h = .canonical ∧ ¬ (funct3Of w = 0 ∧ w.extractLsb' 20 12 = 0x001)) ∨ (h = .exactWord ∧ w ≠ 0x00100073) := by
  cases h <;> simp [isHaltWord, immIField]

/-- Settles O5, by the opcode: under each one the rest of the case says that its selectors are not listed. -/
theorem unrecognizedWordsAreTheFourCases : Obligations.UnrecognizedWordsAreTheFourCases := by
  intro h w
  rw [exists_decode_eq_error_iff, ← decodeRegister_eq_none_iff, ← decodeImmediate_eq_none_iff, ← decodeBranch_eq_none_iff,
    ← isHaltWord_eq_false_iff]
  unfold decodeOp
  split_ifs with ho ho ho ho hw ho ho
  · simp [ho]
  · simp [ho]
  · simp [ho, decodeLoad]
  · simp [ho, hw]
  · simp [ho, hw]
  · simp [ho, decodeStore]
  · simp [ho]
  · simp_all

/-- A word of opcode 0x73 is the halt, or an unknown selector of the I format (R93, R96). -/
theorem decode_of_opcode_0x73 {w : Word} (h : HaltDecode) (ho : opcodeOf w = 0x73) :
    decode h w = if isHaltWord h w then .ok .ebreak else .error (.unknownSelector .I) := by
  have hf : formatOf w = .I := formatOf_of_opcode (m := .ebreak) ho
  cases hw : isHaltWord h w <;> simp [decode, decodeOp_of_opcode_0x73 h ho, hw, hf, operandsOf]

/-- Settles O4: under opcode 0x73 the decoder follows `isHaltWord`, and 0x00100073 is the encoded halt. -/
theorem haltDecodeSelectsEbreak : Obligations.HaltDecodeSelectsEbreak := by
  intro w ho
  have hd (h : HaltDecode) := decode_of_opcode_0x73 h ho
  refine ⟨?_, ?_, ?_, fun h hne => ?_, fun h => decode_encode_of_wf h (i := .ebreak) rfl, rfl⟩
  · simp [hd, isHaltWord, funct3Of, immIField]
  · rw [hd]
    rfl
  · simp [hd, isHaltWord]
  · rw [hd] at hne ⊢
    split_ifs at hne ⊢
    · exact absurd rfl hne
    · rfl

/-- Settles O6, by running the decoder on the words. -/
theorem specWordsDecodeAsWritten : Obligations.SpecWordsDecodeAsWritten := by
  unfold Obligations.SpecWordsDecodeAsWritten
  decide

end Sys2Proof
end

section
/-! Sign extension and the immediates (00_scope.md R13, 30_encoding.md R81 to R84). -/

namespace Sys2Proof

theorem getLsbD_sext32 {n k : Nat} (f : BitVec n) (hk : k < 32) :
    (sext32 f).getLsbD k = if k < n then f.getLsbD k else f.getLsbD (n - 1) := by
  rw [sext32, BitVec.getLsbD_signExtend, BitVec.msb_eq_getLsbD_last, decide_eq_true hk, Bool.true_and]

theorem toInt_sext32 {n : Nat} (hn : n ≤ 32) (f : BitVec n) : (sext32 f).toInt = f.toInt :=
  BitVec.toInt_signExtend_of_le hn

/-- A field shifted to the top of the 16-bit container: bit `k` of the field is bit `16 - n + k` of the container (R81). -/
theorem getLsbD_container {n k : Nat} (hn : n ≤ 16) (hk : k < n) (f : BitVec n) :
    ((f.setWidth 16) <<< (16 - n)).getLsbD (16 - n + k) = f.getLsbD k := by
  have hin : 16 - n + k < 16 := by omega
  simp [hin]

/-- The container of R81 holds the field's sign extension to 16 bits: the shift back restores the field and copies its top bit. -/
theorem container_eq_signExtend {n : Nat} (hn : n ≤ 16) (f : BitVec n) :
    ((f.setWidth 16) <<< (16 - n)).sshiftRight (16 - n) = f.signExtend 16 := by
  have hmsb : ((f.setWidth 16) <<< (16 - n)).msb = f.msb := by
    rw [BitVec.msb_eq_getLsbD_last, BitVec.msb_eq_getLsbD_last]
    by_cases h0 : n = 0
    · subst h0
      simp
    · rw [← getLsbD_container hn (by omega) f]
      congr 1
      omega
  apply BitVec.eq_of_getLsbD_eq
  intro k hk
  rw [BitVec.getLsbD_sshiftRight, BitVec.getLsbD_signExtend, hmsb]
  by_cases hkn : k < n
  · rw [if_pos hkn, if_pos (by omega), getLsbD_container hn hkn]
    simp [hk]
  · rw [if_neg hkn, if_neg (by omega)]
    simp [hk]

/-- Settles O7: the container keeps the field's signed value, and so does each further extension. -/
theorem signExtensionContainerAgrees : Obligations.SignExtensionContainerAgrees := by
  intro n f hn
  have hext : (f.signExtend 16).toInt = (sext32 f).toInt := by
    rw [BitVec.toInt_signExtend_of_le hn, toInt_sext32 (by omega)]
  have hc := container_eq_signExtend hn f
  refine ⟨BitVec.eq_of_toInt_eq ?_, by rw [hc, hext]⟩
  rw [sextContainer, hc, BitVec.toInt_signExtend_of_le (by decide), hext]

theorem getLsbD_immI (w : Word) {k : Nat} (hk : k < 32) :
    (immI w).getLsbD k = if k < 11 then w.getLsbD (k + 20) else w.getLsbD 31 := by
  have hf {i : Nat} (hi : i < 12) : (immIField w).getLsbD i = w.getLsbD (i + 20) := by
    simp [immIField, hi, Nat.add_comm]
  rw [immI, getLsbD_sext32 _ hk]
  by_cases h11 : k < 11
  · rw [if_pos h11, if_pos (by omega), hf (by omega)]
  · rw [if_neg h11]
    split
    · obtain rfl : k = 11 := by omega
      exact hf (by decide)
    · exact hf (by decide)

theorem getLsbD_immS (w : Word) {k : Nat} (hk : k < 32) : (immS w).getLsbD k =
    if k < 5 then w.getLsbD (k + 7) else if k < 11 then w.getLsbD (k + 20) else w.getLsbD 31 := by
  rw [immS, getLsbD_sext32 _ hk, getLsbD_immSField, getLsbD_immSField]
  by_cases h11 : k < 11
  · simp [h11, show k < 12 by omega]
  · by_cases h12 : k = 11
    · simp [h12]
    · simp [h11, show ¬ k < 12 by omega, show ¬ k < 5 by omega]

theorem getLsbD_immB (w : Word) {k : Nat} (hk : k < 32) : (immB w).getLsbD k =
    if k = 0 then false else if k < 5 then w.getLsbD (k + 7) else if k < 11 then w.getLsbD (k + 20)
    else if k = 11 then w.getLsbD 7 else w.getLsbD 31 := by
  rw [immB, getLsbD_sext32 _ hk, getLsbD_immBField, getLsbD_immBField]
  by_cases h12 : k < 12
  · rw [if_pos (by omega)]
    split_ifs
    · rfl
    · rfl
    · rfl
    · rfl
    · omega
  · by_cases he : k = 12
    · simp [he]
    · simp [show ¬ k < 13 by omega, show k ≠ 0 by omega, show ¬ k < 5 by omega, show ¬ k < 11 by omega,
        show k ≠ 11 by omega]

/-! ### Ranges of values -/

theorem toInt_sext32_range (f : BitVec 12) : -2048 ≤ (sext32 f).toInt ∧ (sext32 f).toInt ≤ 2047 := by
  have hlo := BitVec.le_toInt f
  have hhi := BitVec.toInt_lt (x := f)
  rw [toInt_sext32 (by decide)]
  omega

/-- Bit 0 of an offset is the parity of its signed value. -/
theorem offsetEven_iff_toInt {off : BitVec 13} : offsetEven off = true ↔ off.toInt % 2 = 0 := by
  have hbit : off.getLsbD 0 = decide (off.toNat % 2 = 1) := Nat.testBit_zero off.toNat
  have hint := BitVec.toInt_eq_toNat_cond off
  rw [offsetEven, hbit, beq_iff_eq, decide_eq_false_iff_not]
  split at hint <;> omega

theorem toInt_immB_range (w : Word) : -4096 ≤ (immB w).toInt ∧ (immB w).toInt ≤ 4094 ∧ (immB w).toInt % 2 = 0 := by
  have hlo := BitVec.le_toInt (immBField w)
  have hhi := BitVec.toInt_lt (x := immBField w)
  have heven := offsetEven_iff_toInt.mp (offsetEven_immBField w)
  rw [immB, toInt_sext32 (by decide)]
  omega

/-- Settles O8, bit by bit and from the signed value of the fields. -/
theorem immediateBitsAndRanges : Obligations.ImmediateBitsAndRanges := fun w =>
  ⟨fun _ hk => ⟨getLsbD_immI w hk, getLsbD_immS w hk, getLsbD_immB w hk⟩, toInt_sext32_range (immIField w),
    toInt_sext32_range (immSField w), toInt_immB_range w⟩

end Sys2Proof
end

section
/-! No stop (30_encoding.md R97, R98, 60_exceptions.md R172, R176), and the words of a loaded program (30_encoding.md R118,
70_reset_and_hazards.md R189). -/

namespace Sys2Proof.Machine

/-! ### Every step answers a next state -/

/-- The end of the execute phase answers a next state: the PC advance, or the taken fault. -/
theorem exists_endExecute_next (s : State) (r : Except Fault State) : ∃ t, endExecute s r = .next t := by
  cases r with
  | ok t => exact ⟨_, endExecute_ok s t⟩
  | error k => exact ⟨_, endExecute_error s k⟩

theorem exists_execRegister_next (op : AluOp) (rd rs1 rs2 : RegId) (s : State) : ∃ t, execRegister op rd rs1 rs2 s = .next t :=
  exists_endExecute_next s (writeResult s rd (alu s.cfg.shiftGe32 op (readReg s rs1) (readReg s rs2)))

theorem exists_execImmediate_next (op : AluOp) (rd rs1 : RegId) (imm : BitVec 12) (s : State) :
    ∃ t, execImmediate op rd rs1 imm s = .next t :=
  exists_endExecute_next s (writeResult s rd (alu s.cfg.shiftGe32 op (readReg s rs1) (immOperand imm)))

theorem exists_execBranch_next (c : Cond) (rs1 rs2 : RegId) (off : BitVec 13) (s : State) :
    ∃ t, execBranch c rs1 rs2 off s = .next t := ⟨_, endExecute_ok s _⟩

theorem exists_exec_next (i : Instr) (s : State) : ∃ t, exec i s = .next t := by
  cases i with
  | add rd rs1 rs2 => exact exists_execRegister_next .ADD rd rs1 rs2 s
  | sub rd rs1 rs2 => exact exists_execRegister_next .SUB rd rs1 rs2 s
  | xor rd rs1 rs2 => exact exists_execRegister_next .XOR rd rs1 rs2 s
  | or rd rs1 rs2 => exact exists_execRegister_next .OR rd rs1 rs2 s
  | and rd rs1 rs2 => exact exists_execRegister_next .AND rd rs1 rs2 s
  | sll rd rs1 rs2 => exact exists_execRegister_next .SLL rd rs1 rs2 s
  | srl rd rs1 rs2 => exact exists_execRegister_next .SRL rd rs1 rs2 s
  | sra rd rs1 rs2 => exact exists_execRegister_next .SRA rd rs1 rs2 s
  | addi rd rs1 imm => exact exists_execImmediate_next .ADD rd rs1 imm s
  | xori rd rs1 imm => exact exists_execImmediate_next .XOR rd rs1 imm s
  | ori rd rs1 imm => exact exists_execImmediate_next .OR rd rs1 imm s
  | andi rd rs1 imm => exact exists_execImmediate_next .AND rd rs1 imm s
  | lw rd rs1 imm => exact exists_endExecute_next s (writeResult s rd (memRead s (effectiveAddress s rs1 imm)))
  | sw rs2 rs1 imm => exact exists_endExecute_next s (memWrite s (effectiveAddress s rs1 imm) (readReg s rs2))
  | beq rs1 rs2 off | bne rs1 rs2 off | blt rs1 rs2 off | bge rs1 rs2 off => exact exists_execBranch_next _ rs1 rs2 off s
  | ebreak => exact ⟨_, exec_ebreak s⟩

theorem exists_recordInfo_next (w : Word) (t : State) : ∃ u, recordInfo w (.next t) = .next u := by
  rw [recordInfo_next]
  split
  · exact ⟨_, rfl⟩
  · exact ⟨_, rfl⟩

theorem exists_step_next (s : State) : ∃ t, step s = .next t := by
  cases hr : s.running with
  | false => exact ⟨s, step_of_not_running hr⟩
  | true =>
    cases hd : decode s.cfg.haltDecode (fetch s) with
    | error e => exact ⟨_, step_of_decode_error hr hd⟩
    | ok i =>
      obtain ⟨t, ht⟩ := exists_exec_next i s
      rw [step_of_decode_ok hr rfl hd, ht]
      exact exists_recordInfo_next (fetch s) t

/-- Settles O38: every instruction ends its execute phase, and the info update keeps a next state one. -/
theorem everyStepAnswersNext : Obligations.EveryStepAnswersNext := ⟨exists_exec_next, exists_step_next⟩

/-! ### The image of a program -/

theorem length_programImage (ws : List Word) : (programImage ws).length = 4 * ws.length := by
  induction ws with
  | nil => rfl
  | cons w ws ih =>
    simp only [programImage, bytesOfWord, List.length_append, List.length_cons, List.length_nil, ih]
    omega

/-- Byte `4j + k` of the image is byte `k` of word `j` (R118). -/
theorem getD_programImage {ws : List Word} {j k : Nat} (hj : j < ws.length) (hk : k < 4) :
    (programImage ws).getD (4 * j + k) 0 = byteOf ws[j] k := by
  induction ws generalizing j with
  | nil => exact absurd hj (Nat.not_lt_zero j)
  | cons w ws ih =>
    cases j with
    | zero => interval_cases k <;> rfl
    | succ j =>
      rw [show 4 * (j + 1) + k = 4 * j + k + 1 + 1 + 1 + 1 by omega]
      exact ih (Nat.lt_of_succ_lt_succ hj)

theorem readWord_writeBytes_programImage (m : Memory) (a : Nat) {ws : List Word} {j : Nat} (hj : j < ws.length) :
    (m.writeBytes a (programImage ws)).readWord (a + 4 * j) = ws[j] := by
  have hbyte {k : Nat} (hk : k < 4) :
      (m.writeBytes a (programImage ws)).readByte (a + 4 * j + k) = byteOf ws[j] k := by
    have hin : a ≤ a + 4 * j + k ∧ a + 4 * j + k < a + (programImage ws).length := by
      rw [length_programImage]
      omega
    rw [readByte_writeBytes, if_pos hin, Nat.add_assoc, Nat.add_sub_cancel_left, getD_programImage hj hk]
  have h0 : (m.writeBytes a (programImage ws)).readByte (a + 4 * j) = byteOf ws[j] 0 := hbyte (k := 0) (by decide)
  rw [Memory.readWord, h0, hbyte (by decide), hbyte (by decide), hbyte (by decide), wordOfBytes_byteOf]

/-- Settles O46: the load copies the image, whose bytes `4j` to `4j + 3` are those of word `j`. -/
theorem loadedWordsAreFetched : Obligations.LoadedWordsAreFetched := by
  intro s t ws hload j hj
  obtain ⟨-, rfl⟩ := loadProgram_eq_next_iff.mp hload
  exact readWord_writeBytes_programImage s.mem s.cfg.loadBase.toNat hj

end Sys2Proof.Machine
end

section
/-! The assembler (30_encoding.md R104 to R118): the range checks, the branch to a label, and what each line and each source emits. -/

namespace Sys2Proof.Machine

/-! ### Range checks (R115) -/

theorem checkImm12_of_inRange {v : Int} (h : -2048 ≤ v ∧ v ≤ 2047) : checkImm12 v = .ok (BitVec.ofInt 12 v) := if_pos h
theorem checkImm12_of_outOfRange {v : Int} (h : ¬ (-2048 ≤ v ∧ v ≤ 2047)) : checkImm12 v = .error .immediateOutOfRange := if_neg h

theorem checkOffset_of_inRange {v : Int} (h : -4096 ≤ v ∧ v ≤ 4094 ∧ v % 2 = 0) : checkOffset v = .ok (BitVec.ofInt 13 v) :=
  if_pos h
theorem checkOffset_of_outOfRange {v : Int} (h : ¬ (-4096 ≤ v ∧ v ≤ 4094 ∧ v % 2 = 0)) :
    checkOffset v = .error .immediateOutOfRange := if_neg h

/-- An accepted immediate keeps its value. -/
theorem checkImm12_eq_ok_iff {v : Int} {imm : BitVec 12} :
    checkImm12 v = .ok imm ↔ (-2048 ≤ v ∧ v ≤ 2047) ∧ imm.toInt = v := by
  by_cases h : -2048 ≤ v ∧ v ≤ 2047
  · rw [checkImm12_of_inRange h, Except.ok.injEq, and_iff_right h, ← BitVec.toInt_inj,
      BitVec.toInt_ofInt_eq_self (by decide) h.1 (by omega), eq_comm]
  · rw [checkImm12_of_outOfRange h]
    exact ⟨nofun, fun ⟨hr, _⟩ => absurd hr h⟩

/-- An accepted offset keeps its value. -/
theorem checkOffset_eq_ok_iff {v : Int} {off : BitVec 13} :
    checkOffset v = .ok off ↔ (-4096 ≤ v ∧ v ≤ 4094 ∧ v % 2 = 0) ∧ off.toInt = v := by
  by_cases h : -4096 ≤ v ∧ v ≤ 4094 ∧ v % 2 = 0
  · rw [checkOffset_of_inRange h, Except.ok.injEq, and_iff_right h, ← BitVec.toInt_inj,
      BitVec.toInt_ofInt_eq_self (by decide) h.1 (by omega), eq_comm]
  · rw [checkOffset_of_outOfRange h]
    exact ⟨nofun, fun ⟨hr, _⟩ => absurd hr h⟩

/-- Settles O58: an accepted value is in range and is kept, and a value in range is accepted. -/
theorem immediateRangeChecks : Obligations.ImmediateRangeChecks := by
  intro v
  refine ⟨⟨fun ⟨_, h, _⟩ => (checkImm12_eq_ok_iff.mp h).1, fun h => ?_⟩,
    ⟨fun ⟨_, h, _⟩ => (checkOffset_eq_ok_iff.mp h).1, fun h => ?_⟩, checkImm12_of_outOfRange, checkOffset_of_outOfRange⟩
  · have hc := checkImm12_of_inRange h
    exact ⟨_, hc, (checkImm12_eq_ok_iff.mp hc).2⟩
  · have hc := checkOffset_of_inRange h
    exact ⟨_, hc, (checkOffset_eq_ok_iff.mp hc).2⟩

/-! ### Branches to labels (R114, R157) -/

theorem parseImmediate_of_label {labels : List (Text × Nat)} {name : Text} {k : Nat} (hk : lookupLabel labels name = some k)
    (j : Nat) : parseImmediate labels j name = .ok (((k : Int) - (j : Int)) * 4) := by
  simp [parseImmediate, hk]

/-- A branch offset as a 32-bit value is its signed value modulo 2^32. -/
theorem branchOffset_eq_ofInt (off : BitVec 13) : branchOffset off = BitVec.ofInt 32 off.toInt := rfl

theorem offsetAligned_of_toInt {off : BitVec 13} (h : off.toInt % 4 = 0) : offsetAligned off = true := by
  have hpos : (branchOffset off).toNat % 4 = 0 := by
    rw [branchOffset_eq_ofInt, BitVec.toNat_ofInt]
    omega
  rw [offsetAligned_eq_decide, decide_eq_true hpos]

/-- Settles O59: the accepted offset has the value `(k - j) * 4`, and the sum of addresses is one of integers modulo 2^32. -/
theorem labelBranchLandsOnLabel : Obligations.LabelBranchLandsOnLabel := by
  intro labels name j k v off base hk hv hoff
  rw [parseImmediate_of_label hk, Except.ok.injEq] at hv
  obtain ⟨-, hint⟩ := checkOffset_eq_ok_iff.mp hoff
  refine ⟨hv.symm, offsetAligned_of_toInt (by omega), ?_⟩
  rw [branchOffset_eq_ofInt, BitVec.add_assoc, ← BitVec.ofInt_natCast, ← BitVec.ofInt_natCast, ← BitVec.ofInt_add]
  congr 2
  push_cast
  omega

/-! ### What a line can assemble to (R105 to R113) -/

theorem exists_of_bind_eq_ok {α β : Type} {x : Except AsmError α} {f : α → Except AsmError β} {b : β} (h : x >>= f = .ok b) :
    ∃ a, x = .ok a ∧ f a = .ok b := by
  cases x with
  | error e => cases h
  | ok a => exact ⟨a, rfl, h⟩

section
variable {labels : List (Text × Nat)} {j : Nat} {i : Instr} {ts : List Text}

theorem assembleR_eq_ok {make : RegId → RegId → RegId → Instr} (h : assembleR make ts = .ok i) :
    ∃ rd rs1 rs2, i = make rd rs1 rs2 := by
  unfold assembleR at h
  split at h
  · obtain ⟨rd, -, h⟩ := exists_of_bind_eq_ok h
    obtain ⟨rs1, -, h⟩ := exists_of_bind_eq_ok h
    obtain ⟨rs2, -, h⟩ := exists_of_bind_eq_ok h
    exact ⟨rd, rs1, rs2, (Except.ok.inj h).symm⟩
  · cases h

theorem assembleRegRegImm_eq_ok {make : RegId → RegId → BitVec 12 → Instr} {a b c : Text}
    (h : assembleRegRegImm labels j make a b c = .ok i) : ∃ r1 r2 imm, i = make r1 r2 imm := by
  obtain ⟨r1, -, h⟩ := exists_of_bind_eq_ok h
  obtain ⟨r2, -, h⟩ := exists_of_bind_eq_ok h
  obtain ⟨v, -, h⟩ := exists_of_bind_eq_ok h
  obtain ⟨imm, -, h⟩ := exists_of_bind_eq_ok h
  exact ⟨r1, r2, imm, (Except.ok.inj h).symm⟩

theorem assembleI_eq_ok {make : RegId → RegId → BitVec 12 → Instr} (h : assembleI labels j make ts = .ok i) :
    ∃ rd rs1 imm, i = make rd rs1 imm := by
  unfold assembleI at h
  split at h
  · exact assembleRegRegImm_eq_ok h
  · cases h

theorem assembleMem_eq_ok {make : RegId → RegId → BitVec 12 → Instr} (h : assembleMem labels j make ts = .ok i) :
    ∃ r1 r2 imm, i = make r1 r2 imm := by
  unfold assembleMem at h
  split at h
  · split at h
    · exact assembleRegRegImm_eq_ok h
    · cases h
  · exact assembleRegRegImm_eq_ok h
  · cases h

/-- A branch's offset has passed the check of R115, so it is even. -/
theorem assembleB_eq_ok {make : RegId → RegId → BitVec 13 → Instr} (h : assembleB labels j make ts = .ok i) :
    ∃ rs1 rs2 off, offsetEven off = true ∧ i = make rs1 rs2 off := by
  unfold assembleB at h
  split at h
  · obtain ⟨rs1, -, h⟩ := exists_of_bind_eq_ok h
    obtain ⟨rs2, -, h⟩ := exists_of_bind_eq_ok h
    obtain ⟨v, -, h⟩ := exists_of_bind_eq_ok h
    obtain ⟨off, hoff, h⟩ := exists_of_bind_eq_ok h
    obtain ⟨⟨-, -, heven⟩, hint⟩ := checkOffset_eq_ok_iff.mp hoff
    exact ⟨rs1, rs2, off, offsetEven_iff_toInt.mpr (hint ▸ heven), (Except.ok.inj h).symm⟩
  · cases h

theorem assembleLine_wf {l : Text} (h : assembleLine labels j l = .ok i) : i.wf = true := by
  cases hm : mnemonicOfToken (mnemonicToken l) with
  | none =>
    simp only [assembleLine, hm] at h
    cases h
  | some m =>
    cases m with simp only [assembleLine, hm] at h
    | add | sub | xor | or | and | sll | srl | sra =>
      obtain ⟨rd, rs1, rs2, rfl⟩ := assembleR_eq_ok h
      rfl
    | addi | xori | ori | andi =>
      obtain ⟨rd, rs1, imm, rfl⟩ := assembleI_eq_ok h
      rfl
    | lw | sw =>
      obtain ⟨r1, r2, imm, rfl⟩ := assembleMem_eq_ok h
      rfl
    | beq | bne | blt | bge =>
      obtain ⟨rs1, rs2, off, heven, rfl⟩ := assembleB_eq_ok h
      exact heven
    | ebreak =>
      obtain rfl := Except.ok.inj h
      rfl

/-! ### What a source can assemble to (R116 to R118) -/

/-- Operand text after `ebreak` is ignored. -/
theorem assembleLine_of_ebreak {l : Text} (hl : mnemonicToken l = "ebreak".toList) : assembleLine labels j l = .ok .ebreak := by
  have hm : mnemonicOfToken "ebreak".toList = some .ebreak := by decide
  simp only [assembleLine, hl, hm]

/-- `ebreak` ends assembly; any other line puts its word before those of the lines after it. -/
theorem assembleLines_cons_eq_ok {l : Text} {ls : List Text} {ws : List Word} (h : assembleLines labels j (l :: ls) = .ok ws) :
    (assembleLine labels j l = .ok .ebreak ∧ ws = [encode .ebreak]) ∨
      ∃ i ws', assembleLine labels j l = .ok i ∧ i ≠ .ebreak ∧ assembleLines labels (j + 1) ls = .ok ws' ∧
        ws = encode i :: ws' := by
  cases hi : assembleLine labels j l with
  | error e => simp [assembleLines, hi] at h
  | ok i =>
    by_cases hb : i = .ebreak
    · exact .inl ⟨by rw [hb], by simpa [assembleLines, hi, hb, eq_comm] using h⟩
    · cases hrest : assembleLines labels (j + 1) ls with
      | error e => simp [assembleLines, hi, hb, hrest] at h
      | ok ws' => exact .inr ⟨i, ws', rfl, hb, rfl, by simpa [assembleLines, hi, hb, hrest, eq_comm] using h⟩

theorem exists_wf_of_mem_assembleLines {ls : List Text} {ws : List Word} (h : assembleLines labels j ls = .ok ws) {w : Word}
    (hw : w ∈ ws) : ∃ i : Instr, i.wf = true ∧ encode i = w := by
  induction ls generalizing j ws with
  | nil =>
    obtain rfl := Except.ok.inj h
    cases hw
  | cons l ls ih =>
    obtain ⟨-, rfl⟩ | ⟨i, ws', hi, -, hrest, rfl⟩ := assembleLines_cons_eq_ok h
    · exact ⟨.ebreak, rfl, (List.mem_singleton.mp hw).symm⟩
    · obtain rfl | hw := List.mem_cons.mp hw
      · exact ⟨i, assembleLine_wf hi, rfl⟩
      · exact ih hrest hw

/-- No other instruction has the halt's word. -/
theorem eq_ebreak_of_encode_eq (h : encode i = encode .ebreak) : i = .ebreak := by
  have hm : i.mnemonic = .ebreak := by
    have hop := decodeOp_encode .canonical i
    rw [h, decodeOp_encode] at hop
    exact (Option.some.inj hop).symm
  cases i <;> cases hm
  rfl

theorem haltWord_is_last {ls : List Text} {ws : List Word} {k : Nat} (h : assembleLines labels j ls = .ok ws)
    (hk : ws[k]? = some (encode .ebreak)) : k + 1 = ws.length := by
  induction ls generalizing j k ws with
  | nil =>
    obtain rfl := Except.ok.inj h
    cases hk
  | cons l ls ih =>
    obtain ⟨-, rfl⟩ | ⟨i, ws', -, hb, hrest, rfl⟩ := assembleLines_cons_eq_ok h
    · cases k with
      | zero => rfl
      | succ k => cases hk
    · cases k with
      | zero => exact absurd (eq_ebreak_of_encode_eq (Option.some.inj hk)) hb
      | succ k => exact congrArg Nat.succ (ih hrest hk)

end

/-- Settles O56: every emitted word encodes a well-formed instruction, which every setting decodes (O1). -/
theorem assembledWordsAreInstructions : Obligations.AssembledWordsAreInstructions := by
  intro src ws h w hw
  obtain ⟨i, hwf, hi⟩ := exists_wf_of_mem_assembleLines h hw
  exact ⟨i, hwf, hi, fun d => hi ▸ decode_encode_of_wf d hwf⟩

/-- Settles O57: the line emits the halt and no later line is assembled, so the halt word comes only from such a last line. -/
theorem ebreakEndsAssembly : Obligations.EbreakEndsAssembly := by
  refine ⟨fun labels j l ls hl => ?_, fun src ws k h hk => haltWord_is_last h hk⟩
  rw [assembleLines, assembleLine_of_ebreak hl]
  rfl

end Sys2Proof.Machine
end

section
/-! The sequencer's guard and the run states (40_sequencer.md R120, R132). -/

namespace Sys2Proof.Machine

/-- The guard with the bound as the spec writes it, `u(pc) ≤ MEM_SIZE − 4` (R120). -/
theorem running_iff_of_valid {s : State} (h : s.cfg.Valid) :
    s.running = true ↔ s.halt = false ∧ s.pc.toNat ≤ s.cfg.memSize - 4 ∧ s.fault = none := by
  rw [running_iff, inMem_iff_of_valid h, and_comm (a := s.fault = none)]

theorem run_of_not_running {s : State} (h : s.running = false) (n : Nat) : run (n + 1) s = (s, true) := by
  simp [run, stepResult_of_not_running h]

/-- The guard fails by any of the three conditions of R120. -/
theorem not_running_iff_of_valid {s : State} (h : s.cfg.Valid) :
    s.running = false ↔ s.halt = true ∨ s.pc.toNat > s.cfg.memSize - 4 ∨ s.fault ≠ none := by
  rw [← Bool.not_eq_true, running_iff_of_valid h, not_and_or, not_and_or, Bool.not_eq_false, not_le]

/-- Settles O30: the guard fails, and a run that starts with a step that returns false ends there. -/
theorem guardedStepChangesNothing : Obligations.GuardedStepChangesNothing := by
  intro s hcfg hguard
  have hr : s.running = false := (not_running_iff_of_valid hcfg).mpr hguard
  exact ⟨step_of_not_running hr, stepResult_of_not_running hr, run_of_not_running hr⟩

/-- A fault decides the run state alone, and without one the guard does. -/
theorem runState_eq_ite (s : State) :
    runState s = if s.fault ≠ none then .faulted else if s.running then .running else .halted := by
  cases hf : s.fault with
  | some k => simp [runState, hf]
  | none =>
    have hguard : (s.halt || !s.inMem s.pc) = !s.running := by simp [State.running, hf]
    cases hr : s.running <;> simp [runState, hf, hguard, hr]

theorem runState_eq_running_iff (s : State) : runState s = .running ↔ s.running = true := by
  have hfault : s.running = true → s.fault = none := fun hr => ((running_iff s).mp hr).2.1
  simpa [runState_eq_ite, ite_eq_iff] using hfault

theorem runState_eq_halted_iff (s : State) : runState s = .halted ↔ s.running = false ∧ s.fault = none := by
  simp [runState_eq_ite, ite_eq_iff, and_comm]

theorem runState_eq_faulted_iff (s : State) : runState s = .faulted ↔ s.fault ≠ none := by
  simp [runState_eq_ite, ite_eq_iff]

/-- Settles O39: the guard passes exactly in Running, and a guard that fails without a fault is Halted. -/
theorem runStatesPartition : Obligations.RunStatesPartition := by
  intro s hcfg
  refine ⟨(runState_eq_running_iff s).trans (running_iff_of_valid hcfg), ?_, runState_eq_faulted_iff s⟩
  rw [runState_eq_halted_iff, not_running_iff_of_valid hcfg]
  tauto

end Sys2Proof.Machine
end

section
/-! The step's result and Boolean (40_sequencer.md R121 to R130, R134). -/

namespace Sys2Proof.Machine

/-- The step's Boolean in terms of the state it answers (R127). -/
theorem stepResult_of_step {s t : State} (h : step s = .next t) : stepResult s = (t, s.running && t.fault.isNone) := by
  simp [stepResult, h]

theorem progressed_iff (s : State) : (stepResult s).2 = true ↔ s.running = true ∧ (stepResult s).1.fault = none := by
  obtain ⟨t, ht⟩ := exists_step_next s
  simp [stepResult_of_step ht]

/-- Settles O31: the Boolean is the guard and a next state without a fault. -/
theorem stepProgressesUnlessGuardedOrFaulted : Obligations.StepProgressesUnlessGuardedOrFaulted := by
  intro s hcfg
  rw [progressed_iff, running_iff_of_valid hcfg, and_assoc, and_assoc]

/-- Execution leaves the fault field, or raises a fault and changes nothing else (R134). -/
theorem exec_fault {i : Instr} {s t : State} (h : exec i s = .next t) : t.fault = s.fault ∨ ∃ k, t = raiseFault s k := by
  cases exec_shape h with
  | write rd v _ ht => exact .inl (by rw [ht]; rfl)
  | store rs2 rs1 imm _ _ ht => exact .inl (by rw [ht]; rfl)
  | taken off _ _ ht => exact .inl (by rw [ht]; rfl)
  | notTaken _ ht => exact .inl (by rw [ht]; rfl)
  | halt _ ht => exact .inl (by rw [ht]; rfl)
  | fault k ht => exact .inr ⟨k, ht⟩

/-- The three ends of a step: the guard (R120), a raised fault (R134), progress with the word's info (R127, R128). -/
theorem stepResult_cases (s : State) :
    (s.running = false ∧ stepResult s = (s, false)) ∨
      (s.running = true ∧ ∃ k, stepResult s = (raiseFault s k, false)) ∨
      (s.running = true ∧ ∃ u, u.fault = none ∧ u.cfg = s.cfg ∧ stepResult s = (setInfo u (fetch s), true)) := by
  obtain ⟨t, ht⟩ := exists_step_next s
  obtain ⟨hr, -⟩ | ⟨hr, ⟨e, he⟩, -⟩ | ⟨hr, i, u, -, hu, hend⟩ := step_cases ht
  · exact .inl ⟨hr, stepResult_of_not_running hr⟩
  · obtain ⟨-, hf, -⟩ := (running_iff s).mp hr
    exact .inr (.inr ⟨hr, advancePc s, hf, rfl, stepResult_of_decode_error hr he⟩)
  · obtain ⟨-, hf, -⟩ := (running_iff s).mp hr
    rw [stepResult_of_step ht, hr]
    obtain ⟨hne, rfl⟩ | ⟨hnone, rfl⟩ := hend
    · obtain hsame | ⟨k, rfl⟩ := exec_fault hu
      · exact absurd (hsame.trans hf) hne
      · exact .inr (.inl ⟨rfl, k, rfl⟩)
    · exact .inr (.inr ⟨rfl, u, hnone, exec_cfg hu, by simp [hnone]⟩)

/-- Settles O32: of the three ends, only a raised fault leaves a fault where there was none. -/
theorem faultingStepChangesOnlyFault : Obligations.FaultingStepChangesOnlyFault := by
  intro s t k hs hstep ht
  have hres := stepResult_of_step hstep
  obtain ⟨-, h⟩ | ⟨-, j, h⟩ | ⟨-, u, hu, -, h⟩ := stepResult_cases s
  · obtain ⟨rfl, -⟩ := Prod.mk.inj (h.symm.trans hres)
    exact absurd (hs.symm.trans ht) nofun
  · obtain ⟨rfl, -⟩ := Prod.mk.inj (h.symm.trans hres)
    obtain rfl : j = k := Option.some.inj ht
    exact ⟨rfl, h⟩
  · obtain ⟨rfl, -⟩ := Prod.mk.inj (h.symm.trans hres)
    exact absurd (hu.symm.trans ht) nofun

/-- Settles O36: progress records the word's info, and neither the guard nor a fault touches it. -/
theorem infoRecomputedOnProgress : Obligations.InfoRecomputedOnProgress := by
  intro s t b hres
  obtain ⟨-, h⟩ | ⟨-, k, h⟩ | ⟨-, u, -, hcfg, h⟩ := stepResult_cases s
  · obtain ⟨rfl, rfl⟩ := Prod.mk.inj (h.symm.trans hres)
    exact ⟨nofun, fun _ => rfl⟩
  · obtain ⟨rfl, rfl⟩ := Prod.mk.inj (h.symm.trans hres)
    exact ⟨nofun, fun _ => raiseFault_info s k⟩
  · obtain ⟨rfl, rfl⟩ := Prod.mk.inj (h.symm.trans hres)
    exact ⟨fun _ => by rw [setInfo_info, hcfg], nofun⟩

/-- Settles O28: a word read is its four bytes joined, and the info update follows the fault of what the execution answers. -/
theorem stepRunsDecodedInstruction : Obligations.StepRunsDecodedInstruction := by
  intro s i hr hd
  refine ⟨rfl, fun t ht => ?_⟩
  rw [step_of_decode_ok hr rfl hd, ht, recordInfo_next]
  cases hf : t.fault with
  | none => simp [hf, setInfo]
  | some k => simp

/-! ### The unrecognized word (R129, R130) -/

/-- Of the decoder's rejections only that of an unknown opcode has no format (R96). -/
theorem eq_unknownOpcode_iff_formatOf {h : HaltDecode} {w : Word} {e : DecodeError} (hd : decode h w = .error e) :
    e = .unknownOpcode ↔ formatOf w = .NONE := by
  have hop : decodeOp h w = none := exists_decode_eq_error_iff.mp ⟨e, hd⟩
  simp only [decode, hop] at hd
  split at hd
  · rename_i hf
    exact iff_of_true (Except.error.inj hd).symm hf
  · rename_i hf
    exact iff_of_false (Except.error.inj hd ▸ nofun) hf

/-- Settles O29: the step is the no-op, whose info is the record of a word that selects no mnemonic. -/
theorem unrecognizedWordIsNoOp : Obligations.UnrecognizedWordIsNoOp := by
  intro s e hr hd
  have hop : decodeOp s.cfg.haltDecode (fetch s) = none := exists_decode_eq_error_iff.mp ⟨e, hd⟩
  have hinfo : (stepUnrecognized (fetch s) s).info.unrecognized = true := congrArg Option.isNone hop
  exact ⟨_, stepResult_of_decode_error hr hd, fun _ => rfl, fun _ => rfl, rfl, rfl, rfl, rfl, hinfo, hop, rfl,
    eq_unknownOpcode_iff_formatOf hd⟩

/-! ### The next pc (R126) -/

theorem nextPcOf_of_not_branch (s : State) {i : Instr} (hi : i.mnemonic.format ≠ .B) : nextPcOf s i = s.pc + 4 := by
  cases i with
  | beq | bne | blt | bge => exact absurd rfl hi
  | _ => rfl

/-- An instruction that is no branch leaves the pc at the next word (R124). -/
theorem exec_pc_of_not_branch {i : Instr} {s t : State} (h : exec i s = .next t) (hi : i.mnemonic.format ≠ .B)
    (ht : t.fault = none) : t.pc = s.pc + 4 := by
  cases exec_shape h with
  | write rd v _ ht => rw [ht]; rfl
  | store rs2 rs1 imm _ _ ht => rw [ht]; rfl
  | taken off hb _ _ => exact absurd hb hi
  | notTaken hb _ => exact absurd hb hi
  | halt _ ht => rw [ht]; rfl
  | fault k hk => exact absurd (hk ▸ ht) nofun

/-- A branch adds its offset when its condition holds and the offset is a multiple of 4 (R125, R156). -/
theorem execBranch_pc {c : Cond} {rs1 rs2 : RegId} {off : BitVec 13} {s t : State} (h : execBranch c rs1 rs2 off s = .next t) :
    t.pc = if evalCond c (readReg s rs1) (readReg s rs2) = true ∧ (sext32 off).toNat % 4 = 0 then s.pc + sext32 off
      else s.pc + 4 := by
  obtain rfl := Host.Outcome.next.inj h
  have hb : branchTaken c (readReg s rs1) (readReg s rs2) off = true ↔
      evalCond c (readReg s rs1) (readReg s rs2) = true ∧ (sext32 off).toNat % 4 = 0 := by
    rw [branchTaken, Bool.and_eq_true, offsetAligned_eq_decide, decide_eq_true_eq, branchOffset]
  simp only [hb]
  split
  · exact advancePc_redirect_pc s _
  · exact advancePc_pc s

/-- The pc that an execution without a fault leaves. -/
theorem exec_pc {i : Instr} {s t : State} (h : exec i s = .next t) (ht : t.fault = none) : t.pc = nextPcOf s i := by
  by_cases hi : i.mnemonic.format = .B
  · cases i with
    | beq | bne | blt | bge => simpa [evalCond, nextPcOf] using execBranch_pc h
    | _ => cases hi
  · rw [exec_pc_of_not_branch h hi ht, nextPcOf_of_not_branch s hi]

/-- The info update leaves the pc and the fault, whether it happens or not. -/
theorem recordInfo_pc_fault {w : Word} {u t : State} (h : recordInfo w (.next u) = .next t) :
    t.pc = u.pc ∧ t.fault = u.fault := by
  rw [recordInfo_next] at h
  split at h
  · obtain rfl := Host.Outcome.next.inj h
    exact ⟨rfl, rfl⟩
  · obtain rfl := Host.Outcome.next.inj h
    exact ⟨setInfo_pc u w, setInfo_fault u w⟩

/-- Settles O34: the guard answers the same state, a fault changes the fault alone, and progress leaves the pc of the word. -/
theorem sequencerNextPc : Obligations.SequencerNextPc := by
  intro s t hs
  refine ⟨fun hr => ?guard, fun hr hne => ?fault, fun hr hnone => ?progress⟩
  case guard =>
    obtain rfl : s = t := Host.Outcome.next.inj ((step_of_not_running hr).symm.trans hs)
    rfl
  case fault =>
    obtain ⟨-, hf, -⟩ := (running_iff s).mp hr
    obtain ⟨k, hk⟩ := Option.ne_none_iff_exists'.mp hne
    obtain ⟨rfl, -⟩ := faultingStepChangesOnlyFault s t k hf hs hk
    rfl
  case progress =>
    constructor
    · intro i hd
      obtain ⟨u, hu⟩ := exists_exec_next i s
      have hstep := step_of_decode_ok hr rfl hd
      rw [hu, hs] at hstep
      obtain ⟨hpc, hfault⟩ := recordInfo_pc_fault hstep.symm
      rw [hpc, exec_pc hu (hfault ▸ hnone)]
    · intro e he
      obtain rfl := Host.Outcome.next.inj (hs.symm.trans (step_of_decode_error hr he))
      rfl

end Sys2Proof.Machine
end

section
/-! The register-register instructions (41_alu_register.md R136 to R145): the word, the one register written, and the shift by the
whole of `x[rs2]` under each setting of SHIFT_GE32. -/

namespace Sys2Proof.Machine

/-! ### The word, and the write of a result -/

/-- An R-format row's word has the row's function fields and the operands (R72, R86). -/
theorem encodesR_of_encode_eq {i : Instr} {rd rs1 rs2 : RegId} (hi : encode i = encodeRow i.mnemonic rd rs1 rs2)
    (ho : i.mnemonic.opcode = 0x33) : EncodesR i i.mnemonic.funct3 i.mnemonic.funct7 rd rs1 rs2 := by
  rw [EncodesR, hi, opcodeOf_encodeRow, ho]
  simp

/-- The write of a result and the PC advance change nothing but `x[rd]` and the pc (R28, R124). -/
theorem writesOnly_advancePc_writeReg (s : State) (rd : RegId) (v : Word) :
    WritesOnly s (advancePc (writeReg s rd v)) rd v :=
  ⟨readReg_writeReg_same s rd v, fun r hr => readReg_writeReg_ne s rd r v hr, rfl, rfl, fun _ => rfl, rfl, rfl, rfl⟩

/-- An instruction that ends with a result writes it and nothing else. -/
theorem exists_writesOnly_of_ok {i : Instr} {s : State} {rd : RegId} {y : Except Fault Word} {v : Word}
    (hi : exec i s = endExecute s (writeResult s rd y)) (hy : y = .ok v) :
    ∃ t, exec i s = .next t ∧ WritesOnly s t rd v := by
  rw [hi, hy, writeResult_ok, endExecute_ok]
  exact ⟨_, rfl, writesOnly_advancePc_writeReg s rd v⟩

/-- An instruction whose result is a fault raises it and changes nothing else (R134). -/
theorem exec_eq_raiseFault_of_error {i : Instr} {s : State} {rd : RegId} {y : Except Fault Word} {k : Fault}
    (hi : exec i s = endExecute s (writeResult s rd y)) (hy : y = .error k) : exec i s = .next (raiseFault s k) := by
  rw [hi, hy, writeResult_error, endExecute_error]

/-! ### The shift (R136) -/

section
variable (k : ShiftKind) (a : Word) {n : Nat}

theorem shift_of_lt (g : ShiftGe32) (hn : n < 32) : shift g k a n = .ok (shiftSmall k a n) := if_pos hn

theorem shift_mathematical (hn : 32 ≤ n) : shift .mathematical k a n = .ok (shiftAllOut k a) := if_neg (by omega)

theorem shift_mask5 (hn : 32 ≤ n) : shift .mask5 k a n = .ok (shiftSmall k a (n % 32)) := if_neg (by omega)

theorem shift_fault (hn : 32 ≤ n) : shift .fault k a n = .error .shiftOutOfRange := if_neg (by omega)

end

/-- A shift instruction by the four cases of R136, with the shifted word as `small` of the amount and `out` for an oversize one. -/
theorem exec_shift_results {i : Instr} {k : ShiftKind} {rd : RegId} {s : State} {a out : Word} {n : Nat} {small : Nat → Word}
    (hi : exec i s = endExecute s (writeResult s rd (shift s.cfg.shiftGe32 k a n)))
    (hsmall : ∀ n, shiftSmall k a n = small n) (hout : shiftAllOut k a = out) :
    (n < 32 → ∃ t, exec i s = .next t ∧ WritesOnly s t rd (small n)) ∧
    (32 ≤ n → s.cfg.shiftGe32 = .mathematical → ∃ t, exec i s = .next t ∧ WritesOnly s t rd out) ∧
    (32 ≤ n → s.cfg.shiftGe32 = .mask5 → ∃ t, exec i s = .next t ∧ WritesOnly s t rd (small (n % 32))) ∧
    (32 ≤ n → s.cfg.shiftGe32 = .fault → exec i s = .next { s with fault := some .shiftOutOfRange }) := by
  refine ⟨fun hn => ?_, fun hn hg => ?_, fun hn hg => ?_, fun hn hg => ?_⟩
  · exact exists_writesOnly_of_ok hi (hsmall n ▸ shift_of_lt k a _ hn)
  · exact exists_writesOnly_of_ok hi (hg ▸ hout ▸ shift_mathematical k a hn)
  · exact exists_writesOnly_of_ok hi (hg ▸ hsmall (n % 32) ▸ shift_mask5 k a hn)
  · exact exec_eq_raiseFault_of_error hi (hg ▸ shift_fault k a hn)

/-! ### The shifted words as numbers (R136, R137) -/

section
variable (a : Word)

theorem shiftSmall_SLL (n : Nat) : shiftSmall .SLL a n = BitVec.ofNat 32 (a.toNat * 2 ^ n) := by
  apply BitVec.eq_of_toNat_eq
  rw [shiftSmall, BitVec.toNat_shiftLeft, Nat.shiftLeft_eq, BitVec.toNat_ofNat]

theorem shiftSmall_SRL (n : Nat) : shiftSmall .SRL a n = BitVec.ofNat 32 (a.toNat / 2 ^ n) := by
  rw [shiftSmall, ← Nat.shiftRight_eq_div_pow, ← BitVec.toNat_ushiftRight, BitVec.ofNat_toNat, BitVec.setWidth_eq]

/-- The sign fill is the division of the signed value, rounded down. -/
theorem shiftSmall_SRA (n : Nat) : shiftSmall .SRA a n = BitVec.ofInt 32 (a.toInt / 2 ^ n) := by
  rw [shiftSmall, BitVec.sshiftRight, Int.shiftRight_eq_div_pow]
  norm_cast

theorem shiftAllOut_SRA : shiftAllOut .SRA a = if a.toInt < 0 then 0xFFFFFFFF else 0 := by
  have hsign : a.getLsbD 31 = decide (a.toInt < 0) := (BitVec.msb_eq_getLsbD_last a).symm.trans BitVec.msb_eq_toInt
  simp only [shiftAllOut, hsign, decide_eq_true_eq]

end

/-- Settles O12, by the cases of R136. -/
theorem sllResult : Obligations.SllResult := fun _ rs1 _ s =>
  ⟨encodesR_of_encode_eq rfl rfl, exec_shift_results (k := .SLL) rfl (shiftSmall_SLL (readReg s rs1)) rfl⟩

/-- Settles O13, by the cases of R136. -/
theorem srlResult : Obligations.SrlResult := fun _ rs1 _ s =>
  ⟨encodesR_of_encode_eq rfl rfl, exec_shift_results (k := .SRL) rfl (shiftSmall_SRL (readReg s rs1)) rfl⟩

/-- Settles O14, by the cases of R136; both the sign fill and the oversize shift are read off the signed value. -/
theorem sraResult : Obligations.SraResult := fun _ rs1 _ s =>
  ⟨encodesR_of_encode_eq rfl rfl,
    exec_shift_results (k := .SRA) rfl (shiftSmall_SRA (readReg s rs1)) (shiftAllOut_SRA (readReg s rs1))⟩

/-! ### Sum, difference and the bitwise results (R138 to R142) -/

theorem add_eq_ofNat (a b : Word) : a + b = BitVec.ofNat 32 (a.toNat + b.toNat) := by
  rw [BitVec.ofNat_add, BitVec.ofNat_toNat, BitVec.ofNat_toNat, BitVec.setWidth_eq, BitVec.setWidth_eq]

theorem sub_eq_ofInt (a b : Word) : a - b = BitVec.ofInt 32 ((a.toNat : Int) - (b.toNat : Int)) := by
  rw [Int.sub_eq_add_neg, BitVec.ofInt_add, BitVec.ofInt_neg, BitVec.ofInt_natCast, BitVec.ofInt_natCast,
    ← BitVec.sub_eq_add_neg, BitVec.ofNat_toNat, BitVec.ofNat_toNat, BitVec.setWidth_eq, BitVec.setWidth_eq]

/-- Settles O10: the ALU answers the sum and the difference. -/
theorem addSubResults : Obligations.AddSubResults := fun _ rs1 rs2 s =>
  ⟨encodesR_of_encode_eq rfl rfl, encodesR_of_encode_eq rfl rfl,
    exists_writesOnly_of_ok rfl (congrArg Except.ok (add_eq_ofNat (readReg s rs1) (readReg s rs2))),
    exists_writesOnly_of_ok rfl (congrArg Except.ok (sub_eq_ofInt (readReg s rs1) (readReg s rs2)))⟩

section
variable (rd rs1 rs2 : RegId) (s : State)

theorem exec_xor : exec (.xor rd rs1 rs2) s = .next (advancePc (writeReg s rd (readReg s rs1 ^^^ readReg s rs2))) := rfl

theorem exec_or : exec (.or rd rs1 rs2) s = .next (advancePc (writeReg s rd (readReg s rs1 ||| readReg s rs2))) := rfl

theorem exec_and : exec (.and rd rs1 rs2) s = .next (advancePc (writeReg s rd (readReg s rs1 &&& readReg s rs2))) := rfl

end

/-- Settles O11: the ALU answers the bitwise operation of the two words. -/
theorem logicResults : Obligations.LogicResults := fun rd rs1 rs2 s =>
  ⟨encodesR_of_encode_eq rfl rfl, encodesR_of_encode_eq rfl rfl, encodesR_of_encode_eq rfl rfl,
    ⟨_, _, exec_xor rd rs1 rs2 s, writesOnly_advancePc_writeReg s rd _, fun _ _ => BitVec.getLsbD_xor⟩,
    ⟨_, _, exec_or rd rs1 rs2 s, writesOnly_advancePc_writeReg s rd _, fun _ _ => BitVec.getLsbD_or⟩,
    ⟨_, _, exec_and rd rs1 rs2 s, writesOnly_advancePc_writeReg s rd _, fun _ _ => BitVec.getLsbD_and⟩⟩

end Sys2Proof.Machine
end

section
/-! The register-immediate instructions (42_alu_immediate.md R148 to R153): the word, and the result against the sign-extended
immediate. -/

namespace Sys2Proof.Machine

/-! ### The word and the operand -/

/-- An I-format row's word has the row's opcode and funct3 and the operands (R73, R87). -/
theorem encodesI_of_encode_eq {i : Instr} {rd rs1 : RegId} {imm : BitVec 12} (hi : encode i = encodeRowI i.mnemonic rd rs1 imm) :
    EncodesI i i.mnemonic.opcode i.mnemonic.funct3 rd rs1 imm := by
  rw [EncodesI, hi]
  simp

/-- Bits 31 to 12 of the operand are copies of the immediate's bit 11 (R149). -/
theorem getLsbD_immOperand (imm : BitVec 12) {k : Nat} (hk : k < 32) :
    (immOperand imm).getLsbD k = imm.getLsbD (min k 11) := by
  rw [immOperand, getLsbD_sext32 imm hk]
  split
  · rw [Nat.min_eq_left (by omega)]
  · rw [Nat.min_eq_right (by omega)]

/-- Adding the operand adds the immediate's signed value modulo 2^32 (R150). -/
theorem add_immOperand (a : Word) (imm : BitVec 12) : a + immOperand imm = BitVec.ofInt 32 ((a.toNat : Int) + imm.toInt) := by
  rw [BitVec.ofInt_add, BitVec.ofInt_natCast, BitVec.ofNat_toNat, BitVec.setWidth_eq, immOperand, sext32, BitVec.signExtend]

/-! ### The instructions -/

section
variable (rd rs1 : RegId) (imm : BitVec 12) (s : State)

theorem exec_xori : exec (.xori rd rs1 imm) s = .next (advancePc (writeReg s rd (readReg s rs1 ^^^ immOperand imm))) := rfl

theorem exec_ori : exec (.ori rd rs1 imm) s = .next (advancePc (writeReg s rd (readReg s rs1 ||| immOperand imm))) := rfl

theorem exec_andi : exec (.andi rd rs1 imm) s = .next (advancePc (writeReg s rd (readReg s rs1 &&& immOperand imm))) := rfl

end

/-- Settles O15: the ALU answers the sum with the sign-extended immediate. -/
theorem addiResult : Obligations.AddiResult := fun _ rs1 imm s =>
  ⟨encodesI_of_encode_eq rfl, exists_writesOnly_of_ok rfl (congrArg Except.ok (add_immOperand (readReg s rs1) imm))⟩

/-- Settles O16: the ALU answers the bitwise operation with the sign-extended immediate. -/
theorem logicImmediateResults : Obligations.LogicImmediateResults := fun rd rs1 imm s =>
  ⟨encodesI_of_encode_eq rfl, encodesI_of_encode_eq rfl, encodesI_of_encode_eq rfl,
    ⟨_, _, exec_xori rd rs1 imm s, writesOnly_advancePc_writeReg s rd _,
      fun _ hk => by rw [BitVec.getLsbD_xor, getLsbD_immOperand imm hk]⟩,
    ⟨_, _, exec_ori rd rs1 imm s, writesOnly_advancePc_writeReg s rd _,
      fun _ hk => by rw [BitVec.getLsbD_or, getLsbD_immOperand imm hk]⟩,
    ⟨_, _, exec_andi rd rs1 imm s, writesOnly_advancePc_writeReg s rd _,
      fun _ hk => by rw [BitVec.getLsbD_and, getLsbD_immOperand imm hk]⟩⟩

end Sys2Proof.Machine
end

section
/-! The conditional branches (43_branch.md R155 to R161): the word, the target and the frame of each, and the branch to itself. -/

namespace Sys2Proof.Machine

/-! ### The word and the offset -/

/-- A B-format row's word has the row's funct3 and the operands, the offset without its bit 0 (R75, R85, R89). -/
theorem encodesB_of_encode_eq {i : Instr} {rs1 rs2 : RegId} {off : BitVec 13}
    (hi : encode i = encodeRowB i.mnemonic rs1 rs2 off) (ho : i.mnemonic.opcode = 0x63) :
    EncodesB i i.mnemonic.funct3 rs1 rs2 off := by
  rw [EncodesB, hi, opcodeOf_encodeRowB, ho]
  simp

/-- The 32-bit offset is a multiple of 4 exactly when its signed value is one, since 4 divides 2^32 (R156). -/
theorem sext32_toNat_mod_four_iff (off : BitVec 13) : (sext32 off).toNat % 4 = 0 ↔ off.toInt % 4 = 0 := by
  rw [sext32, BitVec.signExtend, BitVec.toNat_ofInt]
  omega

/-! ### Target and frame -/

section
variable {c : Cond} {rs1 rs2 : RegId} {off : BitVec 13} {s t : State}

/-- A branch, taken or not, changes nothing but the pc. -/
theorem execBranch_frame (h : execBranch c rs1 rs2 off s = .next t) :
    RegsSame s t ∧ t.halt = s.halt ∧ MemSame s t ∧ RestSame s t := by
  obtain rfl := Host.Outcome.next.inj h
  split <;> exact ⟨fun _ => rfl, rfl, fun _ => rfl, rfl, rfl, rfl⟩

/-- The whole effect of a branch instruction with the condition `P` (R155, R156). -/
theorem exec_branch_result {i : Instr} {P : Prop} [Decidable P] (hi : exec i s = execBranch c rs1 rs2 off s)
    (hc : evalCond c (readReg s rs1) (readReg s rs2) = decide P) :
    ∃ t, exec i s = .next t ∧ RegsSame s t ∧ t.halt = s.halt ∧ MemSame s t ∧ RestSame s t ∧
      t.pc = if P ∧ off.toInt % 4 = 0 then s.pc + off.signExtend 32 else s.pc + 4 := by
  obtain ⟨t, ht⟩ := exists_execBranch_next c rs1 rs2 off s
  obtain ⟨hregs, hhalt, hmem, hrest⟩ := execBranch_frame ht
  have hpc := execBranch_pc ht
  simp only [hc, decide_eq_true_eq, sext32_toNat_mod_four_iff] at hpc
  exact ⟨t, hi.trans ht, hregs, hhalt, hmem, hrest, hpc⟩

end

/-- Settles O19: the four branches are one, but for the condition. -/
theorem branchResults : Obligations.BranchResults := fun _ _ _ _ =>
  ⟨encodesB_of_encode_eq rfl rfl, encodesB_of_encode_eq rfl rfl, encodesB_of_encode_eq rfl rfl, encodesB_of_encode_eq rfl rfl,
    exec_branch_result (c := .EQ) rfl rfl, exec_branch_result (c := .NE) rfl rfl, exec_branch_result (c := .LTU) rfl rfl,
    exec_branch_result (c := .GEU) rfl rfl⟩

/-! ### The branch to itself (R157) -/

/-- With offset 0 the pre-compensation and the PC advance cancel (R124, R125). -/
theorem advancePc_redirect_zero (s : State) : advancePc (redirect s (branchOffset 0)) = s := by
  have hpc : s.pc + branchOffset 0 - 4 + 4 = s.pc := by rw [BitVec.sub_add_cancel]; exact BitVec.add_zero s.pc
  rw [redirect, advancePc, hpc]

/-- A step that takes a branch to itself progresses and changes the info record only. -/
theorem stepResult_of_selfBranch {i : Instr} {c : Cond} {rs1 rs2 : RegId} {s : State} (hr : s.running = true)
    (hd : decode s.cfg.haltDecode (fetch s) = .ok i) (hi : exec i s = execBranch c rs1 rs2 0 s)
    (hc : evalCond c (readReg s rs1) (readReg s rs2) = true) : stepResult s = (setInfo s (fetch s), true) := by
  have ht : branchTaken c (readReg s rs1) (readReg s rs2) 0 = true := by rw [branchTaken, hc]; rfl
  rw [stepResult_of_ok hr hd (u := redirect s (branchOffset 0)) (by rw [hi, execBranch, if_pos ht]) rfl,
    advancePc_redirect_zero]

/-- A run goes on from the state of a step that progressed (40_sequencer.md R131). -/
theorem run_of_progress {s t : State} (h : stepResult s = (t, true)) (n : Nat) : run (n + 1) s = run n t := by
  simp [run, h]

/-- Settles O49, by induction on the fuel: the step changes the info record only, which no hypothesis reads. -/
theorem selfBranchNeverEnds : Obligations.SelfBranchNeverEnds := by
  intro n rs1 rs2
  induction n with
  | zero => exact fun s _ _ => ⟨rfl, rfl⟩
  | succ n ih =>
    intro s hr h
    have hstep : stepResult s = (setInfo s (fetch s), true) := by
      obtain ⟨hd, hc⟩ | ⟨hd, hc⟩ | ⟨hd, hc⟩ | ⟨hd, hc⟩ := h
      · exact stepResult_of_selfBranch (c := .EQ) hr hd rfl (decide_eq_true hc)
      · exact stepResult_of_selfBranch (c := .NE) hr hd rfl (decide_eq_true hc)
      · exact stepResult_of_selfBranch (c := .LTU) hr hd rfl (decide_eq_true hc)
      · exact stepResult_of_selfBranch (c := .GEU) hr hd rfl (decide_eq_true hc)
    rw [run_of_progress hstep]
    exact ih (setInfo s (fetch s)) hr h

end Sys2Proof.Machine
end

section
/-! Loads and stores (44_load_store.md R164 to R167): the word, the access at EA or its fault, and the round trip. -/

namespace Sys2Proof.Machine

/-! ### The word and the bound -/

/-- An S-format row's word has the row's opcode and funct3 and the operands; `sw` is the one such row (R74, R88). -/
theorem encodesS_sw (rs2 rs1 : RegId) (imm : BitVec 12) : EncodesS (.sw rs2 rs1 imm) rs2 rs1 imm := by
  rw [EncodesS, encode, opcodeOf_encodeRowS, funct3Of_encodeRowS]
  exact ⟨rfl, rfl, rs1Of_encodeRowS .sw rs1 rs2 imm, rs2Of_encodeRowS .sw rs1 rs2 imm, immSField_encodeRowS .sw rs1 rs2 imm⟩

/-- Beyond the bound as the spec writes it, `u(a) > MEM_SIZE − 4`, an access is out of range. -/
theorem not_inMem_of_valid {s : State} (h : s.cfg.Valid) {a : Word} (ha : a.toNat > s.cfg.memSize - 4) : s.inMem a = false := by
  rw [← Bool.not_eq_true, inMem_iff_of_valid h]
  omega

/-! ### The access at EA, or its fault (R164) -/

section
variable {s : State} {rs1 : RegId} {imm : BitVec 12}

/-- A load in range writes the word at EA to its register and advances the pc (R165). -/
theorem exec_lw_of_inMem (h : s.inMem (effectiveAddress s rs1 imm) = true) (rd : RegId) : exec (.lw rd rs1 imm) s =
    .next (advancePc (writeReg s rd (s.mem.readWord (effectiveAddress s rs1 imm).toNat))) := by
  rw [exec, execLw, memRead_of_inMem h, writeResult_ok, endExecute_ok]

theorem exec_lw_of_not_inMem (h : s.inMem (effectiveAddress s rs1 imm) = false) (rd : RegId) :
    exec (.lw rd rs1 imm) s = .next (raiseFault s (.memOutOfRange (effectiveAddress s rs1 imm))) :=
  exec_eq_raiseFault_of_error rfl (memRead_of_not_inMem h)

theorem exec_sw_of_not_inMem (h : s.inMem (effectiveAddress s rs1 imm) = false) (rs2 : RegId) :
    exec (.sw rs2 rs1 imm) s = .next (raiseFault s (.memOutOfRange (effectiveAddress s rs1 imm))) := by
  rw [exec, execSw, memWrite_of_not_inMem h, endExecute_error]

end

/-- A word write changes no byte outside the four at its address (20_memory.md R57). -/
theorem memSameBut_advancePc_writeWord (s : State) (a v : Word) :
    MemSameBut s (advancePc { s with mem := s.mem.writeWord a.toNat v }) a := fun b hb => by
  rw [advancePc_mem, readByte_writeWord, if_neg (by omega)]

/-- Settles O17: in range the loaded word's bytes are those at EA, and beyond the read's fault is taken. -/
theorem lwResult : Obligations.LwResult := by
  intro rd rs1 imm s hcfg
  refine ⟨encodesI_of_encode_eq rfl, rfl, fun hle => ?_, fun hgt => ?_⟩
  · have hin := (inMem_iff_of_valid hcfg (effectiveAddress s rs1 imm)).mpr hle
    exact ⟨_, _, exec_lw_of_inMem hin rd, writesOnly_advancePc_writeReg s rd _, fun _ hk => byteOf_readWord s.mem _ hk⟩
  · exact exec_lw_of_not_inMem (not_inMem_of_valid hcfg hgt) rd

/-- Settles O18: in range only the four bytes at EA and the pc change, and beyond the write's fault is taken. -/
theorem swResult : Obligations.SwResult := by
  intro rs2 rs1 imm s hcfg
  refine ⟨encodesS_sw rs2 rs1 imm, rfl, fun hle => ?_, fun hgt => ?_⟩
  · have hin := (inMem_iff_of_valid hcfg (effectiveAddress s rs1 imm)).mpr hle
    exact ⟨_, exec_sw_of_inMem hin rs2, fun _ hk => readByte_writeWord_add s.mem _ _ hk,
      memSameBut_advancePc_writeWord s _ _, fun _ => rfl, rfl, rfl, rfl, rfl, rfl⟩
  · exact exec_sw_of_not_inMem (not_inMem_of_valid hcfg hgt) rs2

/-- Settles O22: the store changes neither the base register nor the bound, so the load reads the stored word at the same EA. -/
theorem storeThenLoadReturnsValue : Obligations.StoreThenLoadReturnsValue := by
  intro rd rs2 rs1 imm s hcfg hle
  have hin := (inMem_iff_of_valid hcfg (effectiveAddress s rs1 imm)).mpr hle
  refine ⟨_, _, exec_sw_of_inMem hin rs2, exec_lw_of_inMem (s := advancePc { s with mem := _ }) hin rd, ?_⟩
  rw [readReg_advancePc, readReg_writeReg_same]
  exact readWord_writeWord_same s.mem (effectiveAddress s rs1 imm).toNat (readReg s rs2)

end Sys2Proof.Machine
end

section
/-! The halt instruction (45_system.md R169). -/

namespace Sys2Proof.Machine

/-- The state after an execution of `ebreak`: the halt flag set and the pc advanced, nothing else. -/
theorem advancePc_setHalt_frame (s : State) :
    (advancePc (setHalt s)).halt = true ∧ (advancePc (setHalt s)).pc = s.pc + 4 ∧ RegsSame s (advancePc (setHalt s)) ∧
      MemSame s (advancePc (setHalt s)) ∧ RestSame s (advancePc (setHalt s)) :=
  ⟨rfl, rfl, fun _ => rfl, fun _ => rfl, rfl, rfl, rfl⟩

/-- Settles O20: execution leaves the halted state, the step records its info and progresses, and the guard then stops every
further step. -/
theorem ebreakResult : Obligations.EbreakResult := by
  refine ⟨rfl, fun s => ⟨⟨_, exec_ebreak s, advancePc_setHalt_frame s⟩, fun hr hd => ?_⟩⟩
  obtain ⟨hhalt, hpc, hregs, hmem, -⟩ := advancePc_setHalt_frame s
  exact ⟨setInfo (advancePc (setHalt s)) (fetch s), stepResult_of_ok hr hd rfl rfl, hhalt, hpc, hregs, hmem,
    stepResult_of_not_running (not_running_of_halt hhalt)⟩

end Sys2Proof.Machine
end

section
/-! Faults (60_exceptions.md R176 to R179): which instruction raises which kind, and that a fault is terminal until reset. -/

namespace Sys2Proof.Machine

/-! ### The raisers (R176, R179) -/

/-- What makes an execution raise a fault, by the fault it raises. -/
inductive Raises (i : Instr) (s : State) : Fault → Prop where
  /-- A load beyond the array (44_load_store.md R165). -/
  | load (rd rs1 : RegId) (imm : BitVec 12) (hi : i = .lw rd rs1 imm) (hm : s.inMem (effectiveAddress s rs1 imm) = false) :
      Raises i s (.memOutOfRange (effectiveAddress s rs1 imm))
  /-- A store beyond the array (44_load_store.md R166). -/
  | store (rs2 rs1 : RegId) (imm : BitVec 12) (hi : i = .sw rs2 rs1 imm) (hm : s.inMem (effectiveAddress s rs1 imm) = false) :
      Raises i s (.memOutOfRange (effectiveAddress s rs1 imm))
  /-- A shift by 32 or more under SHIFT_GE32 = fault (41_alu_register.md R136). -/
  | shift (rd rs1 rs2 : RegId) (hi : i = .sll rd rs1 rs2 ∨ i = .srl rd rs1 rs2 ∨ i = .sra rd rs1 rs2)
      (hg : s.cfg.shiftGe32 = .fault) (hn : 32 ≤ (readReg s rs2).toNat) : Raises i s .shiftOutOfRange

section
variable {i : Instr} {s t : State} {rd rs1 rs2 : RegId}

/-- A shift that changes the fault field has an oversize amount under SHIFT_GE32 = fault. -/
theorem raises_of_shift {op : AluOp} (hi : i = .sll rd rs1 rs2 ∨ i = .srl rd rs1 rs2 ∨ i = .sra rd rs1 rs2)
    (h : execRegister op rd rs1 rs2 s = .next t) (ht : t.fault ≠ s.fault) : ∃ k, t = raiseFault s k ∧ Raises i s k := by
  obtain ⟨v, hv⟩ | ⟨hg, hn, -, hv⟩ := alu_cases s.cfg.shiftGe32 op (readReg s rs1) (readReg s rs2)
  · rw [execRegister, hv] at h
    obtain rfl := Host.Outcome.next.inj h
    exact absurd rfl ht
  · rw [execRegister, hv] at h
    exact ⟨_, (Host.Outcome.next.inj h).symm, .shift rd rs1 rs2 hi hg hn⟩

/-- An execution that changes the fault field raises a fault it has the cause of, and changes nothing else. -/
theorem raises_of_exec (h : exec i s = .next t) (ht : t.fault ≠ s.fault) : ∃ k, t = raiseFault s k ∧ Raises i s k := by
  cases i with
  | sll rd rs1 rs2 => exact raises_of_shift (op := .SLL) (.inl rfl) h ht
  | srl rd rs1 rs2 => exact raises_of_shift (op := .SRL) (.inr (.inl rfl)) h ht
  | sra rd rs1 rs2 => exact raises_of_shift (op := .SRA) (.inr (.inr rfl)) h ht
  | lw rd rs1 imm =>
    cases hm : s.inMem (effectiveAddress s rs1 imm) with
    | true =>
      obtain rfl := Host.Outcome.next.inj ((exec_lw_of_inMem hm rd).symm.trans h)
      exact absurd rfl ht
    | false => exact ⟨_, (Host.Outcome.next.inj ((exec_lw_of_not_inMem hm rd).symm.trans h)).symm, .load rd rs1 imm rfl hm⟩
  | sw rs2 rs1 imm =>
    cases hm : s.inMem (effectiveAddress s rs1 imm) with
    | true =>
      obtain rfl := Host.Outcome.next.inj ((exec_sw_of_inMem hm rs2).symm.trans h)
      exact absurd rfl ht
    | false => exact ⟨_, (Host.Outcome.next.inj ((exec_sw_of_not_inMem hm rs2).symm.trans h)).symm, .store rs2 rs1 imm rfl hm⟩
  | beq rs1 rs2 off | bne rs1 rs2 off | blt rs1 rs2 off | bge rs1 rs2 off =>
    obtain ⟨-, -, -, -, hfault, -⟩ := execBranch_frame h
    exact absurd hfault ht
  | add rd rs1 rs2 | sub rd rs1 rs2 | xor rd rs1 rs2 | or rd rs1 rs2 | and rd rs1 rs2
  | addi rd rs1 imm | xori rd rs1 imm | ori rd rs1 imm | andi rd rs1 imm | ebreak =>
    obtain rfl := Host.Outcome.next.inj h
    exact absurd rfl ht

/-- The same, named by the fault that stands in the state after. -/
theorem raises_of_exec_fault {k : Fault} (h : exec i s = .next t) (hs : s.fault = none) (ht : t.fault = some k) :
    t = raiseFault s k ∧ Raises i s k := by
  obtain ⟨j, rfl, hj⟩ := raises_of_exec h (by rw [hs, ht]; nofun)
  obtain rfl : j = k := Option.some.inj ht
  exact ⟨rfl, hj⟩

end

/-- An access out of range is beyond the bound as the spec writes it, `u(a) > MEM_SIZE − 4` (R179). -/
theorem gt_of_not_inMem {s : State} (h : s.cfg.Valid) {a : Word} (ha : s.inMem a = false) : a.toNat > s.cfg.memSize - 4 := by
  rwa [← Bool.not_eq_true, inMem_iff_of_valid h, not_le] at ha

/-- Settles O33, by the causes of the raised fault. -/
theorem faultKindsByRaiser : Obligations.FaultKindsByRaiser := by
  intro i s t hcfg hs h
  refine ⟨fun ea hea => ?_, fun hshift => ?_⟩
  · obtain ⟨rfl, hr⟩ := raises_of_exec_fault h hs hea
    cases hr with
    | load rd rs1 imm hi hm => exact ⟨gt_of_not_inMem hcfg hm, rfl, .inl ⟨rd, rs1, imm, hi, rfl⟩⟩
    | store rs2 rs1 imm hi hm => exact ⟨gt_of_not_inMem hcfg hm, rfl, .inr ⟨rs2, rs1, imm, hi, rfl⟩⟩
  · obtain ⟨rfl, hr⟩ := raises_of_exec_fault h hs hshift
    cases hr with
    | shift rd rs1 rs2 hi hg hn => exact ⟨hg, rfl, rd, rs1, rs2, hi, hn⟩

/-! ### The faulted state (R177) -/

theorem not_running_of_fault {s : State} (h : s.fault ≠ none) : s.running = false := by
  rw [← Bool.not_eq_true, running_iff]
  exact fun ⟨_, hf, _⟩ => h hf

theorem loadProgram_fault {s t : State} {bytes : List Byte} (h : loadProgram s bytes = .next t) : t.fault = s.fault := by
  obtain ⟨-, rfl⟩ := loadProgram_eq_next_iff.mp h
  rfl

/-- The guard keeps a step from a faulted state, and a load does not write the field: only reset is left. -/
theorem hostCall_keeps_fault {c : HostCall} {s t : State} (h : hostCall c s = .next t) (hs : s.fault ≠ none) (hc : c ≠ .reset) :
    t.fault = s.fault := by
  cases c with
  | step =>
    obtain rfl : s = t := Host.Outcome.next.inj ((step_of_not_running (not_running_of_fault hs)).symm.trans h)
    rfl
  | reset => exact absurd rfl hc
  | loadProgram bytes => exact loadProgram_fault h

/-- A faulted state has the third end of R202 and neither of the others. -/
theorem ended_of_fault {s : State} (h : s.fault ≠ none) :
    endedByFault s = true ∧ endedByHalt s = false ∧ endedOffMemory s = false := by
  obtain ⟨k, hk⟩ := Option.ne_none_iff_exists'.mp h
  simp [endedByFault, endedByHalt, endedOffMemory, hk]

/-- Settles O41: the guard stops every step, and of the host calls only reset writes the field. -/
theorem faultIsTerminalUntilReset : Obligations.FaultIsTerminalUntilReset := by
  intro c s t h hs
  refine ⟨hostCall_keeps_fault h hs, ?_, stepResult_of_not_running (not_running_of_fault hs), (runState_eq_faulted_iff s).mpr hs,
    ended_of_fault hs⟩
  rintro rfl
  obtain rfl : hostReset s = t := Host.Outcome.next.inj h
  exact hostReset_fault s

end Sys2Proof.Machine
end

section
/-! Reset, loading, runs and the view calls (70_reset_and_hazards.md R187 to R202). -/

namespace Sys2Proof.Machine

/-! ### The zeroed state (R187) -/

/-- What the zeroed state and each state of a walk over zeroed memory (R192) have in common: all but the pc and the info record. -/
structure State.Blank (s : State) : Prop where
  regs : ∀ r : RegId, readReg s r = 0
  mem : s.mem = []
  halt : s.halt = false
  fault : s.fault = none

theorem blank_resetWith (c : Config) : (State.resetWith c).Blank :=
  ⟨fun _ => by simp [readReg, State.resetWith], rfl, rfl, rfl⟩

theorem State.Blank.running_iff {s : State} (h : s.Blank) : s.running = true ↔ s.pc.toNat + 4 ≤ s.cfg.memSize := by
  simp [Machine.running_iff, h.halt, h.fault, inMem_iff]

theorem runState_resetWith {c : Config} (hc : c.Valid) : runState (State.resetWith c) = .running := by
  obtain ⟨hsize, -⟩ := hc
  rw [runState_eq_running_iff, (blank_resetWith c).running_iff]
  exact hsize

/-- Settles O43: both are the zeroed state of a configuration. -/
theorem resetLeavesZeroedState : Obligations.ResetLeavesZeroedState := by
  intro s t ht
  obtain ⟨c, rfl⟩ : ∃ c, t = State.resetWith c := ht.elim (⟨s.cfg, ·⟩) (⟨Config.testVectors, ·⟩)
  exact ⟨(blank_resetWith c).regs, rfl, rfl, readByte_nil, rfl, rfl, runState_resetWith⟩

/-! ### Loading (R189, R190) -/

theorem readByte_writeBytes_getElem (m : Memory) (a : Nat) {bs : List Byte} {k : Nat} (hk : k < bs.length) :
    (m.writeBytes a bs).readByte (a + k) = bs[k] := by
  rw [readByte_writeBytes, if_pos (by omega), Nat.add_sub_cancel_left, List.getD_eq_getElem _ _ hk]

theorem readByte_writeBytes_outside (m : Memory) {a b : Nat} {bs : List Byte} (hb : b < a ∨ a + bs.length ≤ b) :
    (m.writeBytes a bs).readByte b = m.readByte b := by
  rw [readByte_writeBytes, if_neg (by omega)]

/-- LOAD_BASE leaves room for a word in a legal configuration (00_scope.md R10), so the guard passes there. -/
theorem runState_loadProgram_hostReset {s t : State} {bytes : List Byte} (hcfg : s.cfg.Valid)
    (h : loadProgram (hostReset s) bytes = .next t) : runState t = .running := by
  have hvalid : t.cfg.Valid := loadProgram_cfg h ▸ hcfg
  have ⟨_, _, _, hbase⟩ := hcfg
  rw [runState_eq_running_iff, running_iff_of_valid hvalid]
  obtain ⟨-, rfl⟩ := loadProgram_eq_next_iff.mp h
  exact ⟨rfl, hbase, rfl⟩

/-- Settles O44, by what a byte reads as after the copy, inside the image and outside it. -/
theorem loadProgramEffect : Obligations.LoadProgramEffect := by
  refine ⟨fun s bytes hfit => ?_, fun _ _ _ => runState_loadProgram_hostReset⟩
  exact ⟨_, loadProgram_eq_next_iff.mpr ⟨hfit, rfl⟩, fun _ => readByte_writeBytes_getElem s.mem _,
    fun _ => readByte_writeBytes_outside s.mem, rfl, fun _ => rfl, rfl, rfl, rfl, rfl⟩

/-- Settles O45: the image fits or it does not, and a load of one that fits answers a next state. -/
theorem oversizeImageIsRefused : Obligations.OversizeImageIsRefused := by
  intro s bytes
  by_cases hfit : s.cfg.loadBase.toNat + bytes.length ≤ s.cfg.memSize
  · have hnext := loadProgram_eq_next_iff.mpr ⟨hfit, rfl⟩
    exact iff_of_false hfit.not_gt (hnext ▸ nofun)
  · exact iff_of_true (not_le.mp hfit) (if_neg hfit)

/-! ### The walk over zeroed memory (R192) -/

/-- The word 0 has opcode 0, which is none of the six (30_encoding.md R91, R96). -/
theorem decode_zero (h : HaltDecode) : decode h 0 = .error .unknownOpcode := rfl

theorem State.Blank.fetch_eq_zero {s : State} (h : s.Blank) : fetch s = 0 := by
  have hzero : wordOfBytes 0 0 0 0 = 0 := by decide
  simp only [fetch, h.mem, Memory.readWord, readByte_nil, hzero]

theorem State.Blank.stepUnrecognized {s : State} (h : s.Blank) (w : Word) : (stepUnrecognized w s).Blank :=
  ⟨h.regs, h.mem, h.halt, h.fault⟩

theorem State.Blank.decode_fetch {s : State} (h : s.Blank) :
    decode s.cfg.haltDecode (fetch s) = .error .unknownOpcode := by
  rw [h.fetch_eq_zero, decode_zero]

/-- The host interface's run goes on from the state a step answers. -/
theorem core_run_of_step {s t : State} (h : step s = .next t) (n : Nat) : core.run (n + 1) s = core.run n t := by
  simp [Host.Core.run, show core.step s = .next t from h]

/-- While the words fit in the memory, `n` steps from a blank state progress and move the pc by `4n` (modulo 2^32, which the last
step of a memory of 2^32 bytes reaches). -/
theorem State.Blank.run {s : State} {n : Nat} (h : s.Blank) (hn : s.pc.toNat + 4 * n ≤ s.cfg.memSize) :
    ∃ t : State, core.run n s = .next t ∧ run n s = (t, false) ∧ t.pc = s.pc + BitVec.ofNat 32 (4 * n) ∧ t.Blank := by
  induction n generalizing s with
  | zero => exact ⟨s, rfl, rfl, (BitVec.add_zero s.pc).symm, h⟩
  | succ n ih =>
    have hr : s.running = true := h.running_iff.mpr (by omega)
    have hfit : (s.pc + 4).toNat + 4 * n ≤ s.cfg.memSize := by
      have hle : (s.pc + 4).toNat ≤ s.pc.toNat + 4 := Nat.mod_le _ _
      omega
    obtain ⟨t, hcore, hrun, hpc, ht⟩ := ih (h.stepUnrecognized (fetch s)) hfit
    refine ⟨t, ?_, ?_, ?_, ht⟩
    · rw [core_run_of_step (step_of_decode_error hr h.decode_fetch), hcore]
    · rw [run_of_progress (stepResult_of_decode_error hr h.decode_fetch), hrun]
    · calc t.pc = s.pc + 4 + BitVec.ofNat 32 (4 * n) := hpc
        _ = s.pc + BitVec.ofNat 32 (4 * (n + 1)) := by
          rw [BitVec.add_assoc, Nat.mul_succ, Nat.add_comm, BitVec.ofNat_add]
          rfl

/-- Settles O47: the zeroed state is blank, and its pc is 0. -/
theorem bootWalksZeroMemory : Obligations.BootWalksZeroMemory := by
  intro c k _ hk
  obtain ⟨t, hcore, hrun, hpc, ht⟩ := (blank_resetWith c).run (n := k) (by simpa [State.resetWith] using hk)
  exact ⟨t, hcore, hrun, hpc.trans (BitVec.zero_add _), ht.regs, ht.mem, ht.halt, ht.fault⟩

/-! ### The end of a run (R202) -/

/-- A run ends at the first step that returns false (40_sequencer.md R131). -/
theorem run_of_no_progress {s t : State} (h : stepResult s = (t, false)) (n : Nat) : run (n + 1) s = (t, true) := by
  simp [run, h]

/-- A run that has ended stands where the guard fails: at the guard that ended it, or at the fault it took. -/
theorem not_running_of_run_ended {n : Nat} {s t : State} (h : run n s = (t, true)) : t.running = false ∧ t.cfg = s.cfg := by
  induction n generalizing s with
  | zero => exact absurd h nofun
  | succ n ih =>
    obtain ⟨hr, hs⟩ | ⟨-, k, hs⟩ | ⟨-, u, -, hcfg, hs⟩ := stepResult_cases s
    · obtain ⟨rfl, -⟩ := Prod.mk.inj ((run_of_no_progress hs n).symm.trans h)
      exact ⟨hr, rfl⟩
    · obtain ⟨rfl, -⟩ := Prod.mk.inj ((run_of_no_progress hs n).symm.trans h)
      exact ⟨not_running_of_fault nofun, rfl⟩
    · obtain ⟨hstop, ht⟩ := ih ((run_of_progress hs n).symm.trans h)
      exact ⟨hstop, ht.trans hcfg⟩

/-- Settles O48: the guard fails in the end state, which is one of the three, and fails again. -/
theorem runEndsInOneOfThreeStates : Obligations.RunEndsInOneOfThreeStates := by
  intro n s t hcfg h
  obtain ⟨hr, ht⟩ := not_running_of_run_ended h
  exact ⟨(not_running_iff_of_valid (ht ▸ hcfg)).mp hr, stepResult_of_not_running hr⟩

/-! ### The view calls (R195, R196) -/

theorem viewRegisters_getElem? (s : State) (r : RegId) : (viewRegisters s)[r.toNat]? = some (readReg s r) := by
  simp [viewRegisters, readReg, r.isLt]

theorem viewMemory_getElem? {s : State} {a : Nat} (ha : a < s.cfg.memSize) : (viewMemory s)[a]? = some (s.mem.readByte a) := by
  simp [viewMemory, ha]

/-- Settles O50: both views list their values in order, and the other two are fields. -/
theorem viewCallsShowState : Obligations.ViewCallsShowState := fun s =>
  ⟨s.x.length_toList, viewRegisters_getElem? s, by simp [viewMemory], fun _ => viewMemory_getElem?, rfl, rfl⟩

end Sys2Proof.Machine
end
